-- ==== Sys2Proof/Word.lean ====
section
/-! DEFINITION. The word types of CFE: bytes, the 16-bit checksum register and 32-bit bus words
(R10: u8, u16, u32, every value unsigned). -/

namespace Sys2Proof

/-- `u8` (R10). -/
abbrev Byte := BitVec 8

/-- `u16` (R10): the checksum register's width. -/
abbrev Half := BitVec 16

/-- `u32` (R10): the width of a register and of a command word. -/
abbrev Word := BitVec 32

/-- An offset in the 256-byte register window: all that CFE decodes of a host address (R61). -/
abbrev Offset := BitVec 8

end Sys2Proof
end

