-- ==== Sys2Proof/Syntax.lean ====
section
/-! DEFINITION. The twelve commands of CFE, one constructor per row of spec/opcode_table.json (R93).
No command carries an operand field (R92): every operand is read from the state. -/

namespace Sys2Proof

/-- A command of CFE (R93). -/
inductive Instr where
  /-- `NOP`, R194. -/
  | nop
  /-- `CRCINIT`, R115. -/
  | crcinit
  /-- `CRCUPD`, R116. -/
  | crcupd
  /-- `CRCCALC`, R117. -/
  | crccalc
  /-- `BLDUPG`, R135. -/
  | bldupg
  /-- `BLDIAP`, R136. -/
  | bldiap
  /-- `BLDEND`, R137. -/
  | bldend
  /-- `BLDFW`, R138. -/
  | bldfw
  /-- `BLDVER`, R139. -/
  | bldver
  /-- `BLDBSZ`, R140. -/
  | bldbsz
  /-- `BLDBDAT`, R141. -/
  | bldbdat
  /-- `PARSE`, R173. -/
  | parse
  deriving DecidableEq, Repr

end Sys2Proof
end

