-- ==== Sys2Proof/Decode.lean ====
section
/-! DEFINITION. The decoder of R191, total on all 2^32 command words, the encoder from the opcode
map of R93, and the pipeline's `decodeTableWord`. -/

namespace Sys2Proof

/-- Why a word is in the illegal space (R94). Either way the completion step raises the one error
`ILLEGAL_COMMAND` (R204). -/
inductive IllegalReason where
  /-- `w[31:8] != 0`. -/
  | reservedBits
  /-- `w[7:0]` is no opcode of R93. -/
  | unlistedOpcode
  deriving DecidableEq, Repr

/-- What R191's `decode` answers: a command, or `ILLEGAL`. -/
inductive Decoded where
  /-- The word is a command of R93. -/
  | command (i : Instr)
  /-- The word is `ILLEGAL`, by name. -/
  | illegal (why : IllegalReason)
  deriving DecidableEq, Repr

/-- `w[7:0]`, the field `OP` (R91). -/
def opField (w : Word) : Byte := w.extractLsb' 0 8

/-- `w[31:8]`, the field `RSV` (R91). -/
def rsvField (w : Word) : BitVec 24 := w.extractLsb' 8 24

/-- The opcode match of R191, on `w[7:0]` as a number. -/
def decodeOp (op : Nat) : Decoded :=
  match op with
  | 0x00 => .command .nop
  | 0x01 => .command .crcinit
  | 0x02 => .command .crcupd
  | 0x03 => .command .crccalc
  | 0x10 => .command .bldupg
  | 0x11 => .command .bldiap
  | 0x12 => .command .bldend
  | 0x20 => .command .bldfw
  | 0x21 => .command .bldver
  | 0x22 => .command .bldbsz
  | 0x23 => .command .bldbdat
  | 0x30 => .command .parse
  | _ => .illegal .unlistedOpcode

/-- `decode` (R191): the reserved bits are looked at first, then the opcode. -/
def decodeWord (w : Word) : Decoded :=
  if rsvField w = 0 then decodeOp (opField w).toNat else .illegal .reservedBits

/-- The command word of a command: the column `Word` of R93. -/
def encode (i : Instr) : Word :=
  match i with
  | .nop => 0x00000000
  | .crcinit => 0x00000001
  | .crcupd => 0x00000002
  | .crccalc => 0x00000003
  | .bldupg => 0x00000010
  | .bldiap => 0x00000011
  | .bldend => 0x00000012
  | .bldfw => 0x00000020
  | .bldver => 0x00000021
  | .bldbsz => 0x00000022
  | .bldbdat => 0x00000023
  | .parse => 0x00000030

/-- The command of a decoded word, `none` for `ILLEGAL`. -/
def Decoded.command? (d : Decoded) : Option Instr :=
  match d with
  | .command i => some i
  | .illegal _ => none

/-- The command word whose low `nbits` bits are those of `w` and whose other bits are 0. A command
word is one 32-bit value (R90), so the table's bit numbering is the word's own. -/
def tableWord (nbits w : Nat) : Word := BitVec.ofNat 32 (w % 2 ^ nbits)

/-- The command that the decoder reads from a table row's bits. CFE has no command longer than
32 bits (R90, R96). -/
def decodeTableWord (nbits w : Nat) : Option Instr :=
  if nbits ≤ 32 then (decodeWord (tableWord nbits w)).command? else none

end Sys2Proof
end

