-- ==== Sys2Proof/Config.lean ====
section
/-! DEFINITION. What an instance of CFE fixes and the spec leaves open (R9, R40), and the one free
value (the latency of R243). Each is opaque: no proof can see which value it has, so a theorem
holds for every value. -/

namespace Sys2Proof

/-- The legal values of `P_RSP_CMD_OFF` (R9, R171): 3, 4 or 5. -/
inductive RspCmdOff where
  /-- `K = 3`. -/
  | k3
  /-- `K = 4`. -/
  | k4
  /-- `K = 5`, the default (R9). -/
  | k5
  deriving DecidableEq, Repr

/-- `P_BASE / 256`: `P_BASE` is aligned to 256 bytes (R9, R61). Assumption 10. -/
opaque Config.baseBlock : Nat

/-- `P_BASE`, the host address of the register window (R9, R61, D2). -/
def Config.pBase : Nat := 256 * Config.baseBlock

/-- The default of `P_RSP_CMD_OFF` (R9, D17): 5. -/
def Config.rspCmdOffDefault : RspCmdOff := .k5

/-- What the platform sets `P_RSP_CMD_OFF` to, `none` where it sets nothing. Assumption 8. -/
opaque Config.rspCmdOffSet : Option RspCmdOff

/-- `P_RSP_CMD_OFF` of an instance for which `set` was chosen: the default where nothing was (R9). -/
def Config.rspCmdOffOf (set : Option RspCmdOff) : RspCmdOff := set.getD Config.rspCmdOffDefault

/-- `P_RSP_CMD_OFF` (R9, R171, D17). -/
def Config.rspCmdOff : RspCmdOff := Config.rspCmdOffOf Config.rspCmdOffSet

/-- `P_IAP_MODE`, the mode byte of the IAP-entry frame (R9, R136, D13). Assumption 9. -/
opaque Config.iapMode : Byte

/-- The length of `P_IAP_PAYLOAD`, at most 53 (R9, R136). Assumption 9. -/
opaque Config.iapLen : Fin 54

/-- The bytes of `P_IAP_PAYLOAD`; those from `iapLen` on are not used. Assumption 9. -/
opaque Config.iapByte : Nat → Byte

/-- `P_END_MODE`, the mode byte of the end-of-update frame (R9, R137, D13). Assumption 9. -/
opaque Config.endMode : Byte

/-- The length of `P_END_PAYLOAD`, at most 53 (R9, R137). Assumption 9. -/
opaque Config.endLen : Fin 54

/-- The bytes of `P_END_PAYLOAD`; those from `endLen` on are not used. Assumption 9. -/
opaque Config.endByte : Nat → Byte

/-- FREE VALUE. The latency of the `k`-th command issued: the number of host accesses between its
issue and its completion step, any finite number, 0 included (R243, U3). Assumption 3. -/
opaque Config.latency : Nat → Nat

end Sys2Proof
end

