-- ==== Sys2Proof/Machine/Literals.lean ====
section
/-! DEFINITION. The named constants of R7, R8, R110, R130, R135 and R170. The spec asks that each
literal stand in one definition (93, section 4; assumption 17). -/

namespace Sys2Proof.Machine

/-- The CRC initial value (R7, R112). -/
@[simp] abbrev Lit.crcInit : Half := 0xFFFF

/-- The CRC polynomial constant (R7, R110). -/
@[simp] abbrev Lit.crcPoly : Half := 0xA001

/-- `PREAMBLE` (R130). -/
@[simp] abbrev Lit.preamble : List Byte := [0xA5, 0x5A, 0xFC, 0x2E]

/-- `POSTAMBLE` (R130). -/
@[simp] abbrev Lit.postamble : List Byte := [0xFC, 0x5A, 0xA5]

/-- `FRAME_SIZE` (R7). -/
@[simp] abbrev Lit.frameSize : Nat := 64

/-- `FW_MAX` (R7), the limit of `BLDFW` and `BLDVER`. -/
@[simp] abbrev Lit.fwMax : Nat := 52

/-- `BULK_MAX` (R7), the limit of `BLDBDAT`. -/
@[simp] abbrev Lit.bulkMax : Nat := 47

/-- `RSP_MIN` (R7). -/
@[simp] abbrev Lit.rspMin : Nat := 10

/-- `IBUF_SIZE` (R8), the limit of `CRCUPD`, `CRCCALC` and `PARSE`. -/
@[simp] abbrev Lit.ibufSize : Nat := 64

/-- `GEOM_MAX` (R8): the largest payload that fits the frame layout. -/
@[simp] abbrev Lit.geomMax : Nat := 53

/-- `RSP_TAG` (R170). -/
@[simp] abbrev Lit.rspTag : List Byte := [0xA5, 0x5A, 0xFF]

/-- The mode byte of the firmware-chunk frame (R7, R138). -/
@[simp] abbrev Lit.modeFw : Byte := 0x80

/-- The mode byte of the verification frame (R7, R139). -/
@[simp] abbrev Lit.modeVer : Byte := 0x82

/-- The mode byte of the bulk-size frame (R7, R140). -/
@[simp] abbrev Lit.modeBsz : Byte := 0x73

/-- The mode byte of the bulk-data frame (R7, R141). -/
@[simp] abbrev Lit.modeBdat : Byte := 0x74

/-- The mode byte of the upgrade-mode frame (R135). -/
@[simp] abbrev Lit.modeUpg : Byte := 0x2B

/-- The payload of the upgrade-mode frame (R135). -/
@[simp] abbrev Lit.upgPayload : List Byte := [0x01, 0x00, 0x01]

/-- The first offset of `IBUF` (R22, R35). -/
@[simp] abbrev Lit.ibufBase : Nat := 0x40

/-- The first offset of `OBUF` (R22, R36). -/
@[simp] abbrev Lit.obufBase : Nat := 0x80

/-- The first offset past `OBUF` (R22). -/
@[simp] abbrev Lit.obufEnd : Nat := 0xC0

end Sys2Proof.Machine
end

