-- ==== Sys2Proof/Machine/State.lean ====
section
/-! DEFINITION. The state of the machine: the record of R41, the host agent's side of the bus, and
the faults and refusals of a step. Plain data throughout. -/

namespace Sys2Proof.Machine

/-- The direction of a host access (R97: `R` or `W`). -/
inductive Dir where
  | read
  | write
  deriving DecidableEq, Repr

/-- The width of a host access in bytes: 1, 2 or 4 (R13). -/
inductive Width where
  | w1
  | w2
  | w4
  deriving DecidableEq, Repr

/-- The code a failing command records (R202). -/
inductive CmdErr where
  /-- Code 1, R203. -/
  | lengthExceeded
  /-- Code 2, R204. -/
  | illegalCommand
  /-- Code 3, R205. -/
  | shortResponse
  deriving DecidableEq, Repr

/-- The `kind` of a hazard (R240). -/
inductive HazardKind where
  /-- A write to `CMD` while `BUSY` = 1. -/
  | cmdWhileBusy
  /-- Any other write while `BUSY` = 1. -/
  | writeWhileBusy
  /-- Any read while `BUSY` = 1 other than a 32-bit read of `STATUS`. -/
  | readWhileBusy
  deriving DecidableEq, Repr

/-- Why a step stops. -/
inductive Fault where
  /-- `HazardFault(kind)` (R14, R240, U1): raised by a host access while a command is pending, other
  than a 32-bit read of `STATUS`. The hardware's effect is unspecified, so stopping is safe. -/
  | hazard (kind : HazardKind)
  deriving DecidableEq, Repr

/-- Why a step is refused. -/
inductive Refusal where
  /-- The instruction has no meaning in the model; raised by `exec` alone, for none at present. Safe. -/
  | notModelled (mnemonic : String)
  deriving DecidableEq, Repr

/-- One thing the world outside CFE does to it, as the host's script lists them. -/
inductive HostOp where
  /-- `MemRead(off, n)` (R13). -/
  | read (off : Offset) (n : Width)
  /-- `MemWrite(off, n, v)` (R13): the low `8n` bits of `v`. -/
  | write (off : Offset) (n : Width) (v : Word)
  /-- The host's `wait` loop (R98): a 32-bit read of `STATUS`, repeated while bit 0 is 1. -/
  | wait
  /-- The reset input is asserted (R230). -/
  | reset
  deriving DecidableEq, Repr

/-- What a host access gets back from the bus. -/
inductive Reply where
  /-- The value of a read of `n` bytes, zero-extended (R62, R67). -/
  | data (v : Word)
  /-- A write was taken (R68). -/
  | ack
  /-- `BusFault(off, n, dir)`: a bus error response, and no data (R66). -/
  | busError (off : Offset) (n : Width) (dir : Dir)
  deriving DecidableEq, Repr

/-- The bytes of `IBUF` and `OBUF` as (window offset, byte) pairs in the canonical form of
`Memory.wf`; an unlisted offset reads 0x00, both buffers' reset contents (R42). -/
abbrev Memory := List Host.Cell

/-- The complete state of CFE (R41). `STATUS.BUSY` is no field: it is `pend ≠ none` (R25).
`IBUF[i]` is the byte of `mem` at offset `0x40 + i` and `OBUF[i]` at `0x80 + i` (R35, R36). -/
structure Cfe where
  /-- `PEND` (R38). -/
  pend : Option Word
  /-- `STATUS.DONE` (R26). -/
  done : Bool
  /-- `STATUS.ERR` (R27). -/
  err : Bool
  /-- `STATUS.RVALID` (R28). -/
  rvalid : Bool
  /-- `STATUS.ERRCODE` (R29). -/
  errcode : BitVec 4
  /-- `LEN` (R30). -/
  len : BitVec 7
  /-- `CRC` (R31). -/
  crc : Half
  /-- `BSIZE` (R32). -/
  bsize : Word
  /-- `RSPCMD` (R33). -/
  rspcmd : Byte
  /-- `RSPPN` (R34). -/
  rsppn : Word
  /-- `IBUF` (R35) and `OBUF` (R36). -/
  mem : Memory
  deriving DecidableEq, Repr

/-- The machine: CFE and the agents that act on it (R72). All fields but `cfe` are the model's own
(assumptions 1 to 3). -/
structure State where
  /-- CFE's own state (R41). -/
  cfe : Cfe
  /-- What the host and the reset input will still do, oldest first. -/
  script : List HostOp
  /-- The replies the host has received, newest first. -/
  replies : List Reply
  /-- How many more host accesses fall before the completion step of the pending command (R243). -/
  delay : Nat
  /-- How many commands have been issued: the argument of the free latency. -/
  issued : Nat
  deriving DecidableEq, Repr

/-- The reset value of every field of R41 (R42). -/
def Cfe.reset : Cfe where
  pend := none
  done := false
  err := false
  rvalid := false
  errcode := 0
  len := 0
  crc := 0xFFFF
  bsize := 0
  rspcmd := 0
  rsppn := 0
  mem := []

/-- The machine right after reset (R230, R233): CFE at R42's values, nothing asked of it yet. -/
def State.reset : State where
  cfe := Cfe.reset
  script := []
  replies := []
  delay := 0
  issued := 0

end Sys2Proof.Machine
end

