-- ==== Sys2Proof/Machine/Ops.lean ====
section
/-! DEFINITION. The named operations over memory and registers, the byte order, and the two ends of
a completion step: success (R193) and `raise CmdError` (R201), CFE's one kind of exception entry.
CFE has no return from an exception (R211). -/

namespace Sys2Proof.Machine

/-! ## Memory -/

/-- What an offset that memory does not list reads as: the reset contents of both buffers (R42). -/
@[simp] abbrev Memory.unlisted : Byte := 0x00

/-- One byte of memory. -/
def Memory.read (m : Memory) (a : Nat) : Byte :=
  match m with
  | [] => Memory.unlisted
  | (k, b) :: t => if k = a then b else Memory.read t a

/-- Memory with no entry for `a`. -/
def Memory.erase (m : Memory) (a : Nat) : Memory := m.filter (fun c => c.1 != a)

/-- Memory with an entry `(a, b)` put before the first higher address. -/
def Memory.insert (m : Memory) (a : Nat) (b : Byte) : Memory :=
  match m with
  | [] => [(a, b)]
  | (k, c) :: t => if a < k then (a, b) :: (k, c) :: t else (k, c) :: Memory.insert t a b

/-- Write one byte; writing what an unlisted offset reads as removes the entry. -/
def Memory.write (m : Memory) (a : Nat) (b : Byte) : Memory :=
  if b = Memory.unlisted then m.erase a else (m.erase a).insert a b

/-- The `n` bytes from `a` on. -/
def Memory.readList (m : Memory) (a n : Nat) : List Byte :=
  match n with
  | 0 => []
  | n + 1 => m.read a :: Memory.readList m (a + 1) n

/-- Write bytes from `a` on. -/
def Memory.writeList (m : Memory) (a : Nat) (bs : List Byte) : Memory :=
  match bs with
  | [] => m
  | b :: t => Memory.writeList (m.write a b) (a + 1) t

/-- The entries rise strictly from `lo` on, lie below the end of `OBUF`, and none is what an
unlisted offset reads as. -/
def Memory.wfFrom (lo : Nat) (m : Memory) : Bool :=
  match m with
  | [] => true
  | (a, b) :: t =>
    decide (lo ≤ a) && decide (a < Lit.obufEnd) && decide (b ≠ Memory.unlisted) && Memory.wfFrom (a + 1) t

/-- The canonical form: only offsets of `IBUF` and `OBUF` are listed, strictly rising, no entry is
0x00. -/
def Memory.wf (m : Memory) : Bool := Memory.wfFrom Lit.ibufBase m

/-! ## Byte order -/

/-- The width in bytes (R13). -/
def Width.bytes (n : Width) : Nat :=
  match n with
  | .w1 => 1
  | .w2 => 2
  | .w4 => 4

/-- Byte lane `k` of a value: bits `[8k+7:8k]` (R62). -/
def lane (v : Word) (k : Nat) : Byte := v.extractLsb' (8 * k) 8

/-- The low `n` byte lanes of a value, lane 0 first (R62, R68). -/
def lanes (n : Nat) (v : Word) : List Byte := (List.range n).map (lane v)

/-- `le32(v)` (R11). -/
def le32 (v : Word) : List Byte := lanes 4 v

/-- The value whose byte lanes are the given bytes, lane 0 first, the higher lanes 0 (R62). -/
def ofLanes (bs : List Byte) : Word :=
  match bs with
  | [] => 0
  | b :: t => b.setWidth 32 ||| (ofLanes t <<< 8)

/-- `s[k]` (R11), within the sequence. -/
def byteAt (s : List Byte) (k : Nat) : Byte := s.getD k 0

/-- `rd_le32(s, k)` (R11). -/
def rdLe32 (s : List Byte) (k : Nat) : Word :=
  (byteAt s k).setWidth 32 ||| (byteAt s (k + 1)).setWidth 32 <<< 8 |||
    (byteAt s (k + 2)).setWidth 32 <<< 16 ||| (byteAt s (k + 3)).setWidth 32 <<< 24

/-! ## Issue and completion -/

/-- Issuing a command (R190). The word is not looked at. -/
def Cfe.issue (w : Word) (c : Cfe) : Cfe :=
  { c with pend := some w, done := false, err := false, errcode := 0 }

/-- The code in `STATUS.ERRCODE` (R202). -/
def CmdErr.code (e : CmdErr) : BitVec 4 :=
  match e with
  | .lengthExceeded => 1
  | .illegalCommand => 2
  | .shortResponse => 3

/-- The end of a completion step whose body succeeded (R192, R193). -/
def Cfe.succeed (c : Cfe) : Cfe :=
  { c with pend := none, done := true, err := false, errcode := 0 }

/-- `raise CmdError(e)` and the end of the completion step (R192, R201): nothing but `PEND` and the
`STATUS` bits named here changes, and writes the body made before the raise stay. -/
def Cfe.raise (e : CmdErr) (c : Cfe) : Cfe :=
  { c with pend := none, done := true, err := true, errcode := e.code }

/-- The completion step of the engine agent as one transition (R192): `f` is the body with its end.
No host access falls inside it, so the host's side stands. -/
def complete (f : Cfe → Cfe) (s : State) : Host.Outcome State Fault Refusal :=
  .next { s with cfe := f s.cfe }

/-- The completion step of a word of the illegal space (R94, R204). -/
def completeIllegal (s : State) : Host.Outcome State Fault Refusal :=
  complete (Cfe.raise .illegalCommand) s

end Sys2Proof.Machine
end

