-- ==== Sys2Proof/Machine/Flags.lean ====
section
/-! DEFINITION. The `STATUS` register (R24, R25). -/

namespace Sys2Proof.Machine

/-- `STATUS.BUSY`: a command is pending (R25, R38). -/
def Cfe.busy (c : Cfe) : Bool := c.pend.isSome

/-- One flag as a 32-bit value. -/
def flagBit (b : Bool) : Word := if b then 1 else 0

/-- The value of `STATUS` (R24). -/
def Cfe.status (c : Cfe) : Word :=
  flagBit c.busy ||| flagBit c.done <<< 1 ||| flagBit c.err <<< 2 ||| flagBit c.rvalid <<< 3 |||
    c.errcode.setWidth 32 <<< 8

end Sys2Proof.Machine
end

