-- ==== Sys2Proof/Machine/Bus.lean ====
section
/-! DEFINITION. The host's side: the register window (R22), the access table (R64, R65), reads and
writes (R62, R66 to R68), the busy hazard (R235, R240), the reset input (R230) and which agent
moves (R72, R192, R243). -/

namespace Sys2Proof.Machine

/-! ## The window -/

/-- What stands at an offset of the window (R22, R64). A register covers its four offsets. -/
inductive Region where
  | cmd
  | status
  | len
  | crc
  | bsize
  | rspcmd
  | rsppn
  | ibuf
  | obuf
  | reserved
  deriving DecidableEq, Repr

/-- The region of an offset (R22, R37). -/
def regionOf (off : Offset) : Region :=
  if off.toNat < 0x004 then .cmd
  else if off.toNat < 0x008 then .status
  else if off.toNat < 0x00C then .len
  else if off.toNat < 0x010 then .crc
  else if off.toNat < 0x014 then .bsize
  else if off.toNat < 0x018 then .rspcmd
  else if off.toNat < 0x01C then .rsppn
  else if off.toNat < 0x040 then .reserved
  else if off.toNat < 0x080 then .ibuf
  else if off.toNat < 0x0C0 then .obuf
  else .reserved

/-- The read widths of R64. -/
def Region.readable (r : Region) (n : Width) : Bool :=
  match r with
  | .cmd => false
  | .status => n == .w4
  | .len => n == .w4
  | .crc => n == .w4
  | .bsize => n == .w4
  | .rspcmd => n == .w4
  | .rsppn => n == .w4
  | .ibuf => true
  | .obuf => true
  | .reserved => false

/-- The write widths of R64. -/
def Region.writable (r : Region) (n : Width) : Bool :=
  match r with
  | .cmd => n == .w4
  | .status => false
  | .len => n == .w4
  | .crc => false
  | .bsize => n == .w4
  | .rspcmd => false
  | .rsppn => false
  | .ibuf => true
  | .obuf => false
  | .reserved => false

/-- Natural alignment (R65): `off mod n = 0`. -/
def aligned (off : Offset) (n : Width) : Bool := off.toNat % n.bytes == 0

/-- An access that R64 and R65 allow. -/
def allowed (off : Offset) (n : Width) (d : Dir) : Bool :=
  aligned off n &&
    match d with
    | .read => (regionOf off).readable n
    | .write => (regionOf off).writable n

/-! ## Reads and writes while no command is pending -/

/-- The value of an allowed read, formed by R62; `none` is `BusFault` (R66). A read changes nothing
(R67). -/
def Cfe.busRead (off : Offset) (n : Width) (c : Cfe) : Option Word :=
  if allowed off n .read then
    match regionOf off with
    | .status => some c.status
    | .len => some (c.len.setWidth 32)
    | .crc => some (c.crc.setWidth 32)
    | .bsize => some c.bsize
    | .rspcmd => some (c.rspcmd.setWidth 32)
    | .rsppn => some c.rsppn
    | .ibuf => some (ofLanes (c.mem.readList off.toNat n.bytes))
    | .obuf => some (ofLanes (c.mem.readList off.toNat n.bytes))
    | .cmd => none
    | .reserved => none
  else none

/-- CFE after an allowed write (R68, R190); `none` is `BusFault` (R66). -/
def Cfe.busWrite (off : Offset) (n : Width) (v : Word) (c : Cfe) : Option Cfe :=
  if allowed off n .write then
    match regionOf off with
    | .cmd => some (c.issue v)
    | .len => some { c with len := v.setWidth 7 }
    | .bsize => some { c with bsize := v }
    | .ibuf => some { c with mem := c.mem.writeList off.toNat (lanes n.bytes v) }
    | .status => none
    | .crc => none
    | .rspcmd => none
    | .rsppn => none
    | .obuf => none
    | .reserved => none
  else none

/-! ## Hazards -/

/-- The one access allowed while `BUSY` = 1: a 32-bit read of `STATUS` (R235). -/
def isStatusRead (off : Offset) (n : Width) : Bool := off == 0x04 && n == .w4

/-- The hazard of a write while `BUSY` = 1 (R240). A write that touches `CMD`'s offsets at any width
counts as one to `CMD` (assumption 14). -/
def writeHazard (off : Offset) : HazardKind :=
  if regionOf off = .cmd then .cmdWhileBusy else .writeWhileBusy

/-! ## The steps of the host and of the reset input -/

/-- The host receives a reply. -/
def State.reply (r : Reply) (s : State) : State := { s with replies := r :: s.replies }

/-- A host access takes place: one access fewer before the pending command completes. -/
def State.tick (s : State) : State := { s with delay := s.delay - 1 }

/-- A command was issued: its latency is the free value of this issue (R243, assumption 3). -/
def State.drawLatency (s : State) : State :=
  { s with delay := Config.latency s.issued, issued := s.issued + 1 }

/-- `MemRead(off, n)`: a hazard outranks a bus fault (R207). -/
def hostRead (off : Offset) (n : Width) (s : State) : Host.Outcome State Fault Refusal :=
  if s.cfe.busy && !isStatusRead off n then .fault (.hazard .readWhileBusy)
  else
    match s.cfe.busRead off n with
    | some v => .next (s.tick.reply (.data v))
    | none => .next (s.tick.reply (.busError off n .read))

/-- `MemWrite(off, n, v)`: a hazard outranks a bus fault (R207). -/
def hostWrite (off : Offset) (n : Width) (v : Word) (s : State) : Host.Outcome State Fault Refusal :=
  if s.cfe.busy then .fault (.hazard (writeHazard off))
  else
    match s.cfe.busWrite off n v with
    | some c =>
      if regionOf off = .cmd then .next (({ s with cfe := c }).drawLatency.reply .ack)
      else .next (({ s with cfe := c }).tick.reply .ack)
    | none => .next (s.tick.reply (.busError off n .write))

/-- One turn of the `wait` loop (R98): `loop` is the script while bit 0 of `STATUS` is 1, `rest` the
script after it. -/
def hostWait (loop rest : List HostOp) (s : State) : Host.Outcome State Fault Refusal :=
  .next (({ s with script := if s.cfe.status.getLsbD 0 then loop else rest }).tick.reply (.data s.cfe.status))

/-- The reset input (R230, R231): every field of CFE takes its reset value at once. -/
def hostReset (s : State) : Host.Outcome State Fault Refusal := .next { s with cfe := Cfe.reset }

/-- The next thing the outside does. With nothing left, CFE stays as it is (R233). -/
def hostStep (s : State) : Host.Outcome State Fault Refusal :=
  match s.script with
  | [] => .next s
  | .read off n :: rest => hostRead off n { s with script := rest }
  | .write off n v :: rest => hostWrite off n v { s with script := rest }
  | .wait :: rest => hostWait (.wait :: rest) rest s
  | .reset :: rest => hostReset { s with script := rest }

/-! ## Which agent moves -/

/-- The command word that the engine agent completes in this step, if it is the one to move (R192):
a command is pending, and its latency has run out or the host does nothing more (R243). -/
def nextCommand (s : State) : Option Word :=
  if s.delay = 0 ∨ s.script = [] then s.cfe.pend else none

/-! ## Host addresses -/

/-- The offset of a host address in the window, `none` outside it (R61). -/
def offsetOf (addr : Nat) : Option Offset :=
  if Config.pBase ≤ addr ∧ addr < Config.pBase + 256 then some (BitVec.ofNat 8 (addr - Config.pBase))
  else none

end Sys2Proof.Machine
end

