-- ==== Sys2Proof/Machine/Operands.lean ====
section
/-! DEFINITION. The implicit operands of the commands (R92): `IBUF[0..LEN)`, `BSIZE` as bytes, and
the configured contents and offsets (R9, R40). -/

namespace Sys2Proof.Machine

/-- `IBUF[i]` (R35). -/
def Cfe.ibuf (c : Cfe) (i : Nat) : Byte := c.mem.read (Lit.ibufBase + i)

/-- `OBUF[i]` (R36). -/
def Cfe.obuf (c : Cfe) (i : Nat) : Byte := c.mem.read (Lit.obufBase + i)

/-- `LEN` as a count of bytes from 0 to 127 (R92). -/
abbrev Cfe.count (c : Cfe) : Nat := c.len.toNat

/-- `IBUF[0..LEN)` (R35, R92). -/
def Cfe.input (c : Cfe) : List Byte := c.mem.readList Lit.ibufBase c.count

/-- `le32(BSIZE)` (R92, R140). -/
def Cfe.bsizeBytes (c : Cfe) : List Byte := le32 c.bsize

/-- A configured payload: its first `n` bytes. -/
def configPayload (n : Nat) (byte : Nat → Byte) : List Byte := (List.range n).map byte

/-- `P_IAP_PAYLOAD` (R136). -/
def iapPayload : List Byte := configPayload Config.iapLen.val Config.iapByte

/-- `P_END_PAYLOAD` (R137). -/
def endPayload : List Byte := configPayload Config.endLen.val Config.endByte

/-- `K`, the offset of the command echo (R171). -/
def rspOffset (k : RspCmdOff) : Nat :=
  match k with
  | .k3 => 3
  | .k4 => 4
  | .k5 => 5

end Sys2Proof.Machine
end

