-- ==== Sys2Proof/Machine/Checksum.lean ====
section
/-! DEFINITION. The checksum function (R110 to R112) and the checksum family: `CRCINIT`, `CRCUPD`,
`CRCCALC` (R115 to R118). -/

namespace Sys2Proof.Machine

/-- One of the eight steps of `crc_byte` (R110): the shift comes first, and the bit tested is the
one shifted out. The shift is logical (assumption 16). -/
def crcShift (r : Half) : Half :=
  if r.getLsbD 0 then (r >>> 1) ^^^ Lit.crcPoly else r >>> 1

/-- `n` steps of `crc_byte`. -/
def crcShifts (n : Nat) (r : Half) : Half :=
  match n with
  | 0 => r
  | n + 1 => crcShifts n (crcShift r)

/-- `crc_byte(r, b)` (R110). -/
def crcByte (r : Half) (b : Byte) : Half := crcShifts 8 (r ^^^ b.setWidth 16)

/-- `crc_fold(r0, s)` (R111). -/
def crcFold (r : Half) (s : List Byte) : Half :=
  match s with
  | [] => r
  | b :: t => crcFold (crcByte r b) t

/-- `crc16(s)` (R112). -/
def crc16 (s : List Byte) : Half := crcFold Lit.crcInit s

/-- `crc[15:8]`, the first output byte (R112). -/
def hiByte (r : Half) : Byte := r.extractLsb' 8 8

/-- `crc[7:0]`, the second output byte (R112). -/
def loByte (r : Half) : Byte := r.extractLsb' 0 8

/-- The body of `CRCINIT` (R115). -/
def Cfe.crcinit (c : Cfe) : Cfe := Cfe.succeed { c with crc := Lit.crcInit }

/-- The body of `CRCUPD` (R116). -/
def Cfe.crcupd (c : Cfe) : Cfe :=
  if Lit.ibufSize < c.count then c.raise .lengthExceeded
  else Cfe.succeed { c with crc := crcFold c.crc c.input }

/-- The body of `CRCCALC` (R117). -/
def Cfe.crccalc (c : Cfe) : Cfe :=
  if Lit.ibufSize < c.count then c.raise .lengthExceeded
  else Cfe.succeed { c with crc := crc16 c.input }

/-- `CRCINIT` (R115). -/
def execCrcinit (s : State) : Host.Outcome State Fault Refusal := complete Cfe.crcinit s

/-- `CRCUPD` (R116). -/
def execCrcupd (s : State) : Host.Outcome State Fault Refusal := complete Cfe.crcupd s

/-- `CRCCALC` (R117). -/
def execCrccalc (s : State) : Host.Outcome State Fault Refusal := complete Cfe.crccalc s

end Sys2Proof.Machine
end

