-- ==== Sys2Proof/Machine/Control.lean ====
section
/-! DEFINITION. The control family: `NOP` (R194). -/

namespace Sys2Proof.Machine

/-- `NOP` (R194): no body. -/
def execNop (s : State) : Host.Outcome State Fault Refusal := complete Cfe.succeed s

end Sys2Proof.Machine
end

