-- ==== Sys2Proof/Machine/Frame.lean ====
section
/-! DEFINITION. The frame function (R131) and the frame builder family: `BLDUPG`, `BLDIAP`,
`BLDEND`, `BLDFW`, `BLDVER`, `BLDBSZ`, `BLDBDAT` (R133 to R141). -/

namespace Sys2Proof.Machine

/-- The bytes of a frame that the checksum covers (R131, R132): offsets 0 to `8 + P`. -/
def frameBody (m : Byte) (p : List Byte) : List Byte :=
  Lit.preamble ++ [BitVec.ofNat 8 (p.length + 1)] ++ [m] ++ p ++ Lit.postamble

/-- `frame(m, p)` (R131): the body, the check pair high byte first, and zeros up to 64 bytes. -/
def frame (m : Byte) (p : List Byte) : List Byte :=
  frameBody m p ++ [hiByte (crc16 (frameBody m p)), loByte (crc16 (frameBody m p))] ++
    List.replicate (Lit.frameSize - (p.length + 11)) 0x00

/-- `OBUF <- frame(m, p)` and a successful end (R133): all 64 bytes in the one step. -/
def Cfe.emit (m : Byte) (p : List Byte) (c : Cfe) : Cfe :=
  Cfe.succeed { c with mem := c.mem.writeList Lit.obufBase (frame m p) }

/-- The build contract of R133: a `LEN` above `max` raises before any byte is written; otherwise
the frame's payload is `IBUF[0..LEN)`. -/
def Cfe.build (max : Nat) (m : Byte) (c : Cfe) : Cfe :=
  if max < c.count then c.raise .lengthExceeded else c.emit m c.input

/-- `BLDUPG` (R135). -/
def execBldupg (s : State) : Host.Outcome State Fault Refusal :=
  complete (Cfe.emit Lit.modeUpg Lit.upgPayload) s

/-- `BLDIAP` (R136). -/
def execBldiap (s : State) : Host.Outcome State Fault Refusal :=
  complete (Cfe.emit Config.iapMode iapPayload) s

/-- `BLDEND` (R137). -/
def execBldend (s : State) : Host.Outcome State Fault Refusal :=
  complete (Cfe.emit Config.endMode endPayload) s

/-- `BLDFW` (R138). -/
def execBldfw (s : State) : Host.Outcome State Fault Refusal :=
  complete (Cfe.build Lit.fwMax Lit.modeFw) s

/-- `BLDVER` (R139). -/
def execBldver (s : State) : Host.Outcome State Fault Refusal :=
  complete (Cfe.build Lit.fwMax Lit.modeVer) s

/-- `BLDBSZ` (R140). -/
def execBldbsz (s : State) : Host.Outcome State Fault Refusal :=
  complete (fun c => c.emit Lit.modeBsz c.bsizeBytes) s

/-- `BLDBDAT` (R141). -/
def execBldbdat (s : State) : Host.Outcome State Fault Refusal :=
  complete (Cfe.build Lit.bulkMax Lit.modeBdat) s

end Sys2Proof.Machine
end

