-- ==== Sys2Proof/Machine/Parser.lean ====
section
/-! DEFINITION. The response parser (R170 to R174): `PARSE`. -/

namespace Sys2Proof.Machine

/-- The fields of a valid response (R172). -/
structure Response where
  /-- The command echo. -/
  command : Byte
  /-- The packet number. -/
  packetNumber : Word
  deriving DecidableEq, Repr

/-- `parse(s, K)` (R172): `none` is `{valid: false}`. -/
def parseResponse (s : List Byte) (k : Nat) : Option Response :=
  if s.take 3 = Lit.rspTag then some { command := byteAt s k, packetNumber := rdLe32 s (k + 1) }
  else none

/-- The response registers after a parse (R173, D19). -/
def Cfe.setResponse (r : Option Response) (c : Cfe) : Cfe :=
  match r with
  | some v => { c with rvalid := true, rspcmd := v.command, rsppn := v.packetNumber }
  | none => { c with rvalid := false, rspcmd := 0x00, rsppn := 0x00000000 }

/-- The body of `PARSE` (R173) at the offset `k` of the command echo. -/
def Cfe.parse (k : RspCmdOff) (c : Cfe) : Cfe :=
  if Lit.ibufSize < c.count then (c.setResponse none).raise .lengthExceeded
  else if c.count < Lit.rspMin then (c.setResponse none).raise .shortResponse
  else (c.setResponse (parseResponse c.input (rspOffset k))).succeed

/-- `PARSE` (R173), with `K = P_RSP_CMD_OFF`. -/
def execParse (s : State) : Host.Outcome State Fault Refusal :=
  complete (Cfe.parse Config.rspCmdOff) s

end Sys2Proof.Machine
end

