-- ==== Sys2Proof/Machine/Dispatch.lean ====
section
/-! DEFINITION. The completion step of each command (R191, R192), one arm per constructor. -/

namespace Sys2Proof.Machine

/-- The completion step of command `i` (R192). -/
def exec (i : Instr) (s : State) : Host.Outcome State Fault Refusal :=
  match i with
  | .nop => Sys2Proof.Machine.execNop s
  | .crcinit => Sys2Proof.Machine.execCrcinit s
  | .crcupd => Sys2Proof.Machine.execCrcupd s
  | .crccalc => Sys2Proof.Machine.execCrccalc s
  | .bldupg => Sys2Proof.Machine.execBldupg s
  | .bldiap => Sys2Proof.Machine.execBldiap s
  | .bldend => Sys2Proof.Machine.execBldend s
  | .bldfw => Sys2Proof.Machine.execBldfw s
  | .bldver => Sys2Proof.Machine.execBldver s
  | .bldbsz => Sys2Proof.Machine.execBldbsz s
  | .bldbdat => Sys2Proof.Machine.execBldbdat s
  | .parse => Sys2Proof.Machine.execParse s

end Sys2Proof.Machine
end

