-- ==== Sys2Proof/Machine/Step.lean ====
section
/-! DEFINITION. One step of the machine: the engine agent completes the pending command, or the
outside does its next thing (R72, R192). -/

namespace Sys2Proof.Machine

/-- One step (R72). The engine's completion step decodes the word first (R191). -/
def step (s : State) : Host.Outcome State Fault Refusal :=
  match nextCommand s with
  | none => hostStep s
  | some w =>
    match decodeWord w with
    | .command i => exec i s
    | .illegal _ => completeIllegal s

/-- `s` with a table row's bits as the pending command word, to be completed by the very next step:
CFE fetches no instructions (R21), and its next command stands in `PEND` (R38). -/
def State.withFetchWord (s : State) (nbits w : Nat) : State :=
  { s with cfe := { s.cfe with pend := some (tableWord nbits w) }, delay := 0 }

end Sys2Proof.Machine
end

