-- ==== Sys2Proof/Machine/Notation.lean ====
section
/-! DEFINITION. The host assembly notation (R97) and its pseudo-instructions (R98), as scripts of
host operations, and host accesses by host address (R61). -/

namespace Sys2Proof.Machine

/-- A 32-bit write of a register or of the word at an offset (R97). -/
def wr32 (off : Offset) (v : Word) : HostOp := .write off .w4 v

/-- A 16-bit write (R97). -/
def wr16 (off : Offset) (v : Word) : HostOp := .write off .w2 v

/-- An 8-bit write (R97). -/
def wr8 (off : Offset) (v : Word) : HostOp := .write off .w1 v

/-- A 32-bit read (R97). -/
def rd32 (off : Offset) : HostOp := .read off .w4

/-- A 16-bit read (R97). -/
def rd16 (off : Offset) : HostOp := .read off .w2

/-- An 8-bit read (R97). -/
def rd8 (off : Offset) : HostOp := .read off .w1

/-- `cmd OPNAME` (R98). -/
def cmdOp (i : Instr) : List HostOp := [wr32 0x00 (encode i)]

/-- `run OPNAME` (R98). -/
def runOp (i : Instr) : List HostOp := cmdOp i ++ [.wait]

/-- The byte writes of `load`, from buffer index `k` on (R98). -/
def loadBytes (k : Nat) (bs : List Byte) : List HostOp :=
  match bs with
  | [] => []
  | b :: t => wr8 (BitVec.ofNat 8 (Lit.ibufBase + k)) (b.setWidth 32) :: loadBytes (k + 1) t

/-- The `j` word writes of `loadw`, missing bytes as 0x00 (R98). -/
def loadWords (j : Nat) (bs : List Byte) : List HostOp :=
  (List.range j).map (fun k => wr32 (BitVec.ofNat 8 (Lit.ibufBase + 4 * k)) (rdLe32 bs (4 * k)))

/-- `load [b0, ..., b(n-1)]` (R98). -/
def loadOp (bs : List Byte) : List HostOp := loadBytes 0 bs ++ [wr32 0x08 (BitVec.ofNat 32 bs.length)]

/-- `loadw [b0, ..., b(n-1)]` (R98). -/
def loadwOp (bs : List Byte) : List HostOp :=
  loadWords ((bs.length + 3) / 4) bs ++ [wr32 0x08 (BitVec.ofNat 32 bs.length)]

/-- A host read by host address: an access outside the window does not reach CFE (R61). -/
def readAt (addr : Nat) (n : Width) : List HostOp :=
  match offsetOf addr with
  | some off => [.read off n]
  | none => []

/-- A host write by host address: an access outside the window does not reach CFE (R61). -/
def writeAt (addr : Nat) (n : Width) (v : Word) : List HostOp :=
  match offsetOf addr with
  | some off => [.write off n v]
  | none => []

end Sys2Proof.Machine
end

