-- ==== Sys2Proof/Safety.lean ====
section
/-! DEFINITION. What a legal state of CFE is, when a host keeps the busy rule, and what two states
that differ only in timing are. -/

namespace Sys2Proof.Machine

/-- What every reachable state of CFE satisfies: memory in its canonical form (R42); `ERRCODE` is a
legal code (R24, R202), nonzero exactly when `ERR` is 1 (R29); an error is a completion (R43); while
a command is pending `DONE` and `ERR` are 0 (R190); without a valid response the response registers
read 0 (R33, R34); `SHORT_RESPONSE` leaves `RVALID` at 0 (R202). -/
abbrev Cfe.Legal (c : Cfe) : Prop :=
  c.mem.wf = true ∧ c.errcode.toNat ≤ 3 ∧ (c.err = true ↔ c.errcode ≠ 0) ∧
    (c.err = true → c.done = true) ∧ (c.pend ≠ none → c.done = false ∧ c.err = false) ∧
    (c.rvalid = false → c.rspcmd = 0 ∧ c.rsppn = 0) ∧ (c.errcode = 3 → c.rvalid = false)

/-- `OBUF` holds its reset contents or one whole frame (R36, R131, R133). -/
def Cfe.ObufWhole (c : Cfe) : Prop :=
  (∀ j, j < 64 → c.obuf j = 0x00) ∨
    ∃ m p, p.length ≤ 53 ∧ ∀ j, j < 64 → c.obuf j = byteAt (frame m p) j

/-- The host keeps the busy rule (R235, R241): from a write to `CMD` until a `wait` has ended, or the
reset input is asserted, it only reads `STATUS`. `busy` is what the host must assume at the start of
the script. -/
def keepsBusyRule (busy : Bool) (script : List HostOp) : Bool :=
  match busy, script with
  | _, [] => true
  | _, .wait :: rest => keepsBusyRule false rest
  | _, .reset :: rest => keepsBusyRule false rest
  | false, .read _ _ :: rest => keepsBusyRule false rest
  | false, .write off _ _ :: rest => keepsBusyRule (decide (regionOf off = .cmd)) rest
  | true, .read off n :: rest => isStatusRead off n && keepsBusyRule true rest
  | true, .write _ _ _ :: _ => false

/-- Nothing is left to do: the host's script is done and no command is pending. -/
abbrev State.Quiet (s : State) : Prop := s.script = [] ∧ s.cfe.pend = none

/-- Two states of the same CFE and the same script, which may differ in the latency still to run, in
the latencies of the commands to come (these depend on `issued`), and in the replies so far. -/
abbrev State.SameButTiming (s t : State) : Prop := s.cfe = t.cfe ∧ s.script = t.script

/-- A step that faults. -/
def isFault (o : Host.Outcome State Fault Refusal) : Bool :=
  match o with
  | .next _ => false
  | .fault _ => true
  | .refused _ => false

end Sys2Proof.Machine
end

