-- ==== Sys2Proof/WellFormed.lean ====
section
/-! DEFINITION. What a well-formed instruction, configuration and host notation is. A command has no
operand field (R92), so every command is well formed; the spec's checks are on the configuration
(R9, R136) and on the host's accesses and loads (R64, R65, R97, R98). -/

namespace Sys2Proof

/-- No command carries a field that could be ill formed (R92). -/
def Instr.wellFormed (i : Instr) : Bool :=
  match i with
  | .nop => true
  | .crcinit => true
  | .crcupd => true
  | .crccalc => true
  | .bldupg => true
  | .bldiap => true
  | .bldend => true
  | .bldfw => true
  | .bldver => true
  | .bldbsz => true
  | .bldbdat => true
  | .parse => true

/-- `P_BASE` is aligned to 256 bytes (R9, R61). -/
def baseOk (addr : Nat) : Bool := addr % 256 == 0

/-- `P_RSP_CMD_OFF` is one of 3, 4 and 5 (R9, R171). -/
def rspOffsetOk (k : Nat) : Bool := k == 3 || k == 4 || k == 5

/-- A configured payload has at most 53 bytes (R9, R136, R137), the domain of `frame` (R131). -/
def payloadOk (p : List Byte) : Bool := decide (p.length ≤ Machine.Lit.geomMax)

/-- A load fits `IBUF` (R98, R35). -/
def loadOk (bs : List Byte) : Bool := decide (bs.length ≤ Machine.Lit.ibufSize)

/-- A host operation that raises no `BusFault` on an idle CFE (R64, R65). -/
def Machine.HostOp.wellFormed (op : Machine.HostOp) : Bool :=
  match op with
  | .read off n => Machine.allowed off n .read
  | .write off n _ => Machine.allowed off n .write
  | .wait => true
  | .reset => true

end Sys2Proof
end

