-- ==== Sys2Proof/Certificates/Slice0/Obligations.lean ====
section
/-! DEFINITION. The statements for the provers, each from numbered rules of the spec. The host's
script and its list of replies are the model's own form of the bus (assumptions 1 and 2). -/

open Sys2Proof Sys2Proof.Machine

/-! ## Reset -/

/-- R42, R230: the value of every field of R41 after reset; no byte of the buffers but 0x00. -/
def Obligations.ResetLeavesTheStatedValues : Prop :=
  State.reset.cfe.pend = none ∧ State.reset.cfe.done = false ∧ State.reset.cfe.err = false ∧
  State.reset.cfe.rvalid = false ∧ State.reset.cfe.errcode = 0 ∧ State.reset.cfe.len = 0 ∧
  State.reset.cfe.crc = 0xFFFF ∧ State.reset.cfe.bsize = 0 ∧ State.reset.cfe.rspcmd = 0 ∧
  State.reset.cfe.rsppn = 0 ∧
  (∀ i, i < 64 → State.reset.cfe.ibuf i = 0x00) ∧ (∀ i, i < 64 → State.reset.cfe.obuf i = 0x00)

/-- R230, R231: the reset input, asserted while the command `w` is pending, leaves CFE at its reset
values in both orders: the completion came before it and is overwritten, or it never happens. -/
def Obligations.ResetDiscardsThePendingCommand : Prop :=
  ∀ (s : State) (w : Word) (rest : List HostOp),
    s.cfe.pend = some w → s.script = .reset :: rest →
    (s.delay ≠ 0 → step s = .next { s with cfe := State.reset.cfe, script := rest }) ∧
    (s.delay = 0 → ∃ t, step s = .next t ∧
      step t = .next { s with cfe := State.reset.cfe, script := rest })

/-- R230: the reset input on an idle CFE. -/
def Obligations.ResetInputOnIdleCfe : Prop :=
  ∀ (s : State) (rest : List HostOp),
    s.cfe.pend = none → s.script = .reset :: rest →
    step s = .next { s with cfe := State.reset.cfe, script := rest }

/-! ## Decoding -/

/-- R93: the word of each command, written out. -/
def Obligations.CommandWordsDecode : Prop :=
  decodeWord 0x00000000 = .command .nop ∧ decodeWord 0x00000001 = .command .crcinit ∧
  decodeWord 0x00000002 = .command .crcupd ∧ decodeWord 0x00000003 = .command .crccalc ∧
  decodeWord 0x00000010 = .command .bldupg ∧ decodeWord 0x00000011 = .command .bldiap ∧
  decodeWord 0x00000012 = .command .bldend ∧ decodeWord 0x00000020 = .command .bldfw ∧
  decodeWord 0x00000021 = .command .bldver ∧ decodeWord 0x00000022 = .command .bldbsz ∧
  decodeWord 0x00000023 = .command .bldbdat ∧ decodeWord 0x00000030 = .command .parse

/-- R91, R93: decode and encode agree on all 2^32 words. A command's word decodes to it, no other
word does, and a word decodes to some command exactly when its reserved bits are 0 and its opcode is
one of the twelve. -/
def Obligations.DecodeAndEncodeAgree : Prop :=
  (∀ (w : Word) (i : Instr), decodeWord w = .command i ↔ w = encode i) ∧
  (∀ w : Word, (∃ i, decodeWord w = .command i) ↔
    (w.toNat / 256 = 0 ∧
      w.toNat % 256 ∈ [0x00, 0x01, 0x02, 0x03, 0x10, 0x11, 0x12, 0x20, 0x21, 0x22, 0x23, 0x30]))

/-- R94, R204: the illegal space, by its ranges. Such a word is accepted by the write to `CMD`, and
at its completion step it changes nothing but `PEND`, `DONE`, `ERR` and `ERRCODE`. -/
def Obligations.IllegalWordsAreAcceptedThenRaise : Prop :=
  ∀ (s : State) (w : Word),
    (w.toNat / 256 ≠ 0 ∨ (0x04 ≤ w.toNat ∧ w.toNat ≤ 0x0F) ∨ (0x13 ≤ w.toNat ∧ w.toNat ≤ 0x1F) ∨
      (0x24 ≤ w.toNat ∧ w.toNat ≤ 0x2F) ∨ (0x31 ≤ w.toNat ∧ w.toNat ≤ 0xFF)) →
    (∀ rest, s.cfe.pend = none → s.script = .write 0x00 .w4 w :: rest →
      ∃ t, step s = .next t ∧ t.cfe.pend = some w) ∧
    (s.cfe.pend = some w → (s.delay = 0 ∨ s.script = []) →
      step s = .next { s with cfe := { s.cfe with
        pend := none, done := true, err := true, errcode := 2 } })

/-- R191, R192: when the pending word decodes to the command `i` and the engine agent moves, a step is
`exec i`, with nothing around it. When the engine moves is the model's form of R243 (assumption 3). -/
def Obligations.StepRunsTheDecodedCommand : Prop :=
  ∀ (s : State) (w : Word) (i : Instr),
    s.cfe.pend = some w → (s.delay = 0 ∨ s.script = []) → decodeWord w = .command i →
    step s = exec i s

/-! ## Control and the life cycle -/

/-- R190: a 32-bit write of any `w` to `CMD` issues it and changes nothing else of CFE; another width
is a `BusFault`; a write while `BUSY` = 1 is a hazard. -/
def Obligations.CmdWriteIssuesTheCommand : Prop :=
  ∀ (s : State) (w : Word) (rest : List HostOp),
    (s.cfe.pend = none → s.script = .write 0x00 .w4 w :: rest →
      ∃ t, step s = .next t ∧ t.script = rest ∧ t.replies = .ack :: s.replies ∧
        t.cfe = { s.cfe with pend := some w, done := false, err := false, errcode := 0 }) ∧
    (∀ n, s.cfe.pend = none → n ≠ .w4 → s.script = .write 0x00 n w :: rest →
      ∃ t, step s = .next t ∧ t.script = rest ∧
        t.replies = .busError 0x00 n .write :: s.replies ∧ t.cfe = s.cfe) ∧
    (s.cfe.pend ≠ none → s.delay ≠ 0 → s.script = .write 0x00 .w4 w :: rest →
      step s = .fault (.hazard .cmdWhileBusy))

/-- R192, R43: every command, in every state, completes: `BUSY` is 0 and `DONE` is 1, `ERR` is 1
exactly when `ERRCODE` is not 0, and the host's side is as it was. -/
def Obligations.EveryCommandCompletes : Prop :=
  ∀ (i : Instr) (s : State), ∃ c : Cfe, exec i s = .next { s with cfe := c } ∧
    c.pend = none ∧ c.done = true ∧ (c.err = true ↔ c.errcode ≠ 0) ∧
    (i ≠ .parse → c.rvalid = s.cfe.rvalid) ∧ (i = .parse → c.err = true → c.rvalid = false)

/-- R30, R32, R35: no command changes `LEN`, `BSIZE` or a byte of `IBUF`. -/
def Obligations.NoCommandWritesItsInputs : Prop :=
  ∀ (i : Instr) (s t : State), exec i s = .next t →
    t.cfe.len = s.cfe.len ∧ t.cfe.bsize = s.cfe.bsize ∧ ∀ j, j < 64 → t.cfe.ibuf j = s.cfe.ibuf j

/-- R118, R134, R174: `CRC` is written by the checksum commands alone, memory by the build commands
alone (and only in `OBUF`), and the response registers by `PARSE` alone; and only `CRCUPD` reads
`CRC`: any other command does the same whatever `CRC` holds. -/
def Obligations.EachFamilyWritesOnlyItsRegisters : Prop :=
  ∀ (i : Instr) (s t : State), exec i s = .next t →
    (i ∉ [.crcinit, .crcupd, .crccalc] → t.cfe.crc = s.cfe.crc) ∧
    (i ∉ [.bldupg, .bldiap, .bldend, .bldfw, .bldver, .bldbsz, .bldbdat] → t.cfe.mem = s.cfe.mem) ∧
    (∀ a, ¬(0x80 ≤ a ∧ a < 0xC0) → t.cfe.mem.read a = s.cfe.mem.read a) ∧
    (i ≠ .parse → t.cfe.rvalid = s.cfe.rvalid ∧ t.cfe.rspcmd = s.cfe.rspcmd ∧
      t.cfe.rsppn = s.cfe.rsppn) ∧
    t.cfe.len = s.cfe.len ∧ t.cfe.bsize = s.cfe.bsize ∧
    (i ≠ .crcupd → ∀ r, ∃ r', exec i { s with cfe := { s.cfe with crc := r } } =
      .next { t with cfe := { t.cfe with crc := r' } })

/-- R194: `NOP`, the word 0 and no other, completes with `ERR` and `ERRCODE` cleared and changes nothing else. -/
def Obligations.NopChangesOnlyStatus : Prop :=
  (∀ w, decodeWord w = .command .nop ↔ w = 0x00000000) ∧
  ∀ s : State, exec .nop s = .next { s with cfe := { s.cfe with
    pend := none, done := true, err := false, errcode := 0 } }

/-! ## Checksum -/

/-- R110: `crc_byte`, on numbers: eight times, halve, and XOR `0xA001` if the number was odd. -/
def Obligations.CrcByteIsEightHalvings : Prop :=
  ∀ (r : Half) (b : Byte),
    (crcByte r b).toNat =
      (fun n : Nat => if n % 2 = 1 then (n / 2) ^^^ 0xA001 else n / 2)^[8] (r.toNat ^^^ b.toNat)

/-- R111: the fold takes the bytes of a sequence in order, from the first on, each by `crc_byte`. -/
def Obligations.CrcFoldTakesBytesInOrder : Prop :=
  (∀ r, crcFold r [] = r) ∧
  (∀ r s b, crcFold r (s ++ [b]) = crcByte (crcFold r s) b) ∧
  (∀ r b s, crcFold r (b :: s) = crcFold (crcByte r b) s)

/-- R114: the streaming law, for all sequences: a sequence may be cut anywhere. -/
def Obligations.CrcFoldStreams : Prop :=
  (∀ r s t, crcFold r (s ++ t) = crcFold (crcFold r s) t) ∧
  (∀ s t, crc16 (s ++ t) = crcFold (crc16 s) t)

/-- R112: the checksum starts from `0xFFFF`, its pair is the high and the low byte, and the source's
worked example. -/
def Obligations.CrcOfTheReferenceFrame : Prop :=
  (∀ s, crc16 s = crcFold 0xFFFF s) ∧
  (∀ r : Half, (hiByte r).toNat = r.toNat / 256 ∧ (loByte r).toNat = r.toNat % 256) ∧
  crc16 [0xA5, 0x5A, 0xFC, 0x2E, 0x04, 0x2B, 0x01, 0x00, 0x01, 0xFC, 0x5A, 0xA5] = 0x7C7B

/-- R115: `CRC` takes the initial value, whatever it held, and nothing else changes but `STATUS`. -/
def Obligations.CrcinitSetsTheInitialValue : Prop :=
  (∀ w, decodeWord w = .command .crcinit ↔ w = 0x00000001) ∧
  ∀ s : State, exec .crcinit s = .next { s with cfe := { s.cfe with
    pend := none, done := true, err := false, errcode := 0, crc := 0xFFFF } }

/-- R116: up to 64 bytes are folded into the current `CRC`; a longer `LEN` leaves `CRC` as it was. -/
def Obligations.CrcupdFoldsTheInput : Prop :=
  (∀ w, decodeWord w = .command .crcupd ↔ w = 0x00000002) ∧
  ∀ s : State,
    (s.cfe.len.toNat ≤ 64 → exec .crcupd s = .next { s with cfe := { s.cfe with
      pend := none, done := true, err := false, errcode := 0,
      crc := crcFold s.cfe.crc ((List.range s.cfe.len.toNat).map s.cfe.ibuf) } }) ∧
    (64 < s.cfe.len.toNat → exec .crcupd s = .next { s with cfe := { s.cfe with
      pend := none, done := true, err := true, errcode := 1 } })

/-- R117: the checksum of up to 64 bytes from a fresh register; a longer `LEN` leaves `CRC` as it
was. -/
def Obligations.CrccalcComputesTheInput : Prop :=
  (∀ w, decodeWord w = .command .crccalc ↔ w = 0x00000003) ∧
  ∀ s : State,
    (s.cfe.len.toNat ≤ 64 → exec .crccalc s = .next { s with cfe := { s.cfe with
      pend := none, done := true, err := false, errcode := 0,
      crc := crc16 ((List.range s.cfe.len.toNat).map s.cfe.ibuf) } }) ∧
    (64 < s.cfe.len.toNat → exec .crccalc s = .next { s with cfe := { s.cfe with
      pend := none, done := true, err := true, errcode := 1 } })

/-- R114, R116: `CRCINIT` and two `CRCUPD`, with anything between them that leaves `CRC` alone, give
the checksum of the two inputs one after the other. -/
def Obligations.CrcupdChainEqualsOneChecksum : Prop :=
  ∀ s a b c d e : State,
    exec .crcinit s = .next a → b.cfe.crc = a.cfe.crc → b.cfe.len.toNat ≤ 64 →
    exec .crcupd b = .next c → d.cfe.crc = c.cfe.crc → d.cfe.len.toNat ≤ 64 →
    exec .crcupd d = .next e →
    e.cfe.crc = crc16 ((List.range b.cfe.len.toNat).map b.cfe.ibuf ++
      (List.range d.cfe.len.toNat).map d.cfe.ibuf)

/-! ## Frames -/

/-- R131, R132: the byte at each offset of a frame. The check pair is that of the frame's own bytes 0
to `8 + P`, high byte first. -/
def Obligations.FrameLayout : Prop :=
  ∀ (m : Byte) (p : List Byte), p.length ≤ 53 →
    (frame m p).length = 64 ∧
    ∀ j, j < 64 → byteAt (frame m p) j =
      if j < 4 then byteAt [0xA5, 0x5A, 0xFC, 0x2E] j
      else if j = 4 then BitVec.ofNat 8 (p.length + 1)
      else if j = 5 then m
      else if j < 6 + p.length then byteAt p (j - 6)
      else if j < 9 + p.length then byteAt [0xFC, 0x5A, 0xA5] (j - (6 + p.length))
      else if j = 9 + p.length then
        BitVec.ofNat 8 ((crc16 ((frame m p).take (9 + p.length))).toNat / 256)
      else if j = 10 + p.length then
        BitVec.ofNat 8 ((crc16 ((frame m p).take (9 + p.length))).toNat % 256)
      else 0x00

/-- R135: the bytes of the upgrade-mode frame, and no other byte of memory changes. -/
def Obligations.BldupgBuildsTheReferenceFrame : Prop :=
  (∀ w, decodeWord w = .command .bldupg ↔ w = 0x00000010) ∧
  frame 0x2B [0x01, 0x00, 0x01] =
    [0xA5, 0x5A, 0xFC, 0x2E, 0x04, 0x2B, 0x01, 0x00, 0x01, 0xFC, 0x5A, 0xA5, 0x7C, 0x7B] ++
      List.replicate 50 0x00 ∧
  ∀ s : State, ∃ m : Memory, exec .bldupg s = .next { s with cfe := { s.cfe with
      pend := none, done := true, err := false, errcode := 0, mem := m } } ∧
    ∀ a, m.read a = if 0x80 ≤ a ∧ a < 0xC0 then
        byteAt [0xA5, 0x5A, 0xFC, 0x2E, 0x04, 0x2B, 0x01, 0x00, 0x01, 0xFC, 0x5A, 0xA5, 0x7C, 0x7B]
          (a - 0x80)
      else s.cfe.mem.read a

/-- R136: the IAP-entry frame, whatever the configured mode byte and payload of at most 53 bytes. -/
def Obligations.BldiapBuildsTheConfiguredFrame : Prop :=
  (∀ w, decodeWord w = .command .bldiap ↔ w = 0x00000011) ∧ iapPayload.length ≤ 53 ∧
  ∀ s : State, ∃ m : Memory, exec .bldiap s = .next { s with cfe := { s.cfe with
      pend := none, done := true, err := false, errcode := 0, mem := m } } ∧
    ∀ a, m.read a = if 0x80 ≤ a ∧ a < 0xC0 then
        byteAt (frame Config.iapMode iapPayload) (a - 0x80)
      else s.cfe.mem.read a

/-- R137: the end-of-update frame, whatever the configured mode byte and payload of at most 53
bytes. -/
def Obligations.BldendBuildsTheConfiguredFrame : Prop :=
  (∀ w, decodeWord w = .command .bldend ↔ w = 0x00000012) ∧ endPayload.length ≤ 53 ∧
  ∀ s : State, ∃ m : Memory, exec .bldend s = .next { s with cfe := { s.cfe with
      pend := none, done := true, err := false, errcode := 0, mem := m } } ∧
    ∀ a, m.read a = if 0x80 ≤ a ∧ a < 0xC0 then
        byteAt (frame Config.endMode endPayload) (a - 0x80)
      else s.cfe.mem.read a

/-- R138: a payload of at most 52 bytes is framed with mode byte `0x80`; a longer `LEN` raises
`LENGTH_EXCEEDED` and changes no byte. -/
def Obligations.BldfwFramesTheInput : Prop :=
  (∀ w, decodeWord w = .command .bldfw ↔ w = 0x00000020) ∧
  ∀ s : State,
    (s.cfe.len.toNat ≤ 52 → ∃ m : Memory, exec .bldfw s = .next { s with cfe := { s.cfe with
        pend := none, done := true, err := false, errcode := 0, mem := m } } ∧
      ∀ a, m.read a = if 0x80 ≤ a ∧ a < 0xC0 then
          byteAt (frame 0x80 ((List.range s.cfe.len.toNat).map s.cfe.ibuf)) (a - 0x80)
        else s.cfe.mem.read a) ∧
    (52 < s.cfe.len.toNat → exec .bldfw s = .next { s with cfe := { s.cfe with
      pend := none, done := true, err := true, errcode := 1 } })

/-- R139: as `BLDFW`, with mode byte `0x82`; for the same payload the two frames differ only at offset
5 and in the check pair. -/
def Obligations.BldverFramesTheInput : Prop :=
  (∀ w, decodeWord w = .command .bldver ↔ w = 0x00000021) ∧
  (∀ p : List Byte, p.length ≤ 52 → byteAt (frame 0x80 p) 5 ≠ byteAt (frame 0x82 p) 5 ∧
    ∀ j, j ≠ 5 → j ≠ 9 + p.length → j ≠ 10 + p.length →
      byteAt (frame 0x80 p) j = byteAt (frame 0x82 p) j) ∧
  ∀ s : State,
    (s.cfe.len.toNat ≤ 52 → ∃ m : Memory, exec .bldver s = .next { s with cfe := { s.cfe with
        pend := none, done := true, err := false, errcode := 0, mem := m } } ∧
      ∀ a, m.read a = if 0x80 ≤ a ∧ a < 0xC0 then
          byteAt (frame 0x82 ((List.range s.cfe.len.toNat).map s.cfe.ibuf)) (a - 0x80)
        else s.cfe.mem.read a) ∧
    (52 < s.cfe.len.toNat → exec .bldver s = .next { s with cfe := { s.cfe with
      pend := none, done := true, err := true, errcode := 1 } })

/-- R140: `BSIZE` as four bytes, least significant first, framed with mode byte `0x73`. -/
def Obligations.BldbszFramesTheSize : Prop :=
  (∀ w, decodeWord w = .command .bldbsz ↔ w = 0x00000022) ∧
  ∀ s : State, ∃ m : Memory, exec .bldbsz s = .next { s with cfe := { s.cfe with
      pend := none, done := true, err := false, errcode := 0, mem := m } } ∧
    ∀ a, m.read a = if 0x80 ≤ a ∧ a < 0xC0 then
        byteAt (frame 0x73 [BitVec.ofNat 8 s.cfe.bsize.toNat,
          BitVec.ofNat 8 (s.cfe.bsize.toNat / 2 ^ 8), BitVec.ofNat 8 (s.cfe.bsize.toNat / 2 ^ 16),
          BitVec.ofNat 8 (s.cfe.bsize.toNat / 2 ^ 24)]) (a - 0x80)
      else s.cfe.mem.read a

/-- R141: a payload of at most 47 bytes is framed with mode byte `0x74`; a longer `LEN` raises
`LENGTH_EXCEEDED` and changes no byte. -/
def Obligations.BldbdatFramesTheInput : Prop :=
  (∀ w, decodeWord w = .command .bldbdat ↔ w = 0x00000023) ∧
  ∀ s : State,
    (s.cfe.len.toNat ≤ 47 → ∃ m : Memory, exec .bldbdat s = .next { s with cfe := { s.cfe with
        pend := none, done := true, err := false, errcode := 0, mem := m } } ∧
      ∀ a, m.read a = if 0x80 ≤ a ∧ a < 0xC0 then
          byteAt (frame 0x74 ((List.range s.cfe.len.toNat).map s.cfe.ibuf)) (a - 0x80)
        else s.cfe.mem.read a) ∧
    (47 < s.cfe.len.toNat → exec .bldbdat s = .next { s with cfe := { s.cfe with
      pend := none, done := true, err := true, errcode := 1 } })

/-! ## The parser -/

/-- R171 to R173: `PARSE`, at the configured offset `K = P_RSP_CMD_OFF`, one of 3, 4 and 5. -/
def Obligations.ParseDecidesTheResponse : Prop :=
  (∀ w, decodeWord w = .command .parse ↔ w = 0x00000030) ∧
  (rspOffset .k3 = 3 ∧ rspOffset .k4 = 4 ∧ rspOffset .k5 = 5) ∧ ∀ s : State,
    (64 < s.cfe.len.toNat → exec .parse s = .next { s with cfe := { s.cfe with
      pend := none, done := true, err := true, errcode := 1,
      rvalid := false, rspcmd := 0, rsppn := 0 } }) ∧
    (s.cfe.len.toNat < 10 → exec .parse s = .next { s with cfe := { s.cfe with
      pend := none, done := true, err := true, errcode := 3,
      rvalid := false, rspcmd := 0, rsppn := 0 } }) ∧
    (10 ≤ s.cfe.len.toNat → s.cfe.len.toNat ≤ 64 →
      s.cfe.ibuf 0 = 0xA5 ∧ s.cfe.ibuf 1 = 0x5A ∧ s.cfe.ibuf 2 = 0xFF →
      exec .parse s = .next { s with cfe := { s.cfe with
        pend := none, done := true, err := false, errcode := 0, rvalid := true,
        rspcmd := s.cfe.ibuf (rspOffset Config.rspCmdOff),
        rsppn := BitVec.ofNat 32 ((s.cfe.ibuf (rspOffset Config.rspCmdOff + 1)).toNat +
          2 ^ 8 * (s.cfe.ibuf (rspOffset Config.rspCmdOff + 2)).toNat +
          2 ^ 16 * (s.cfe.ibuf (rspOffset Config.rspCmdOff + 3)).toNat +
          2 ^ 24 * (s.cfe.ibuf (rspOffset Config.rspCmdOff + 4)).toNat) } }) ∧
    (10 ≤ s.cfe.len.toNat → s.cfe.len.toNat ≤ 64 →
      ¬(s.cfe.ibuf 0 = 0xA5 ∧ s.cfe.ibuf 1 = 0x5A ∧ s.cfe.ibuf 2 = 0xFF) →
      exec .parse s = .next { s with cfe := { s.cfe with
        pend := none, done := true, err := false, errcode := 0,
        rvalid := false, rspcmd := 0, rsppn := 0 } })

/-! ## What commands do not depend on -/

/-- R35, R92 (U7): no command depends on the bytes of `IBUF` from `LEN` on. From two states that agree
but for those bytes, it leaves states that agree but for those bytes. -/
def Obligations.CommandsIgnoreInputPastLen : Prop :=
  ∀ (i : Instr) (s : State) (m : Memory),
    (∀ a, ¬(0x40 + s.cfe.len.toNat ≤ a ∧ a < 0x80) → m.read a = s.cfe.mem.read a) →
    ∃ c d : Cfe, exec i s = .next { s with cfe := c } ∧
      exec i { s with cfe := { s.cfe with mem := m } } = .next { s with cfe := d } ∧
      d = { c with mem := d.mem } ∧
      ∀ a, ¬(0x40 + s.cfe.len.toNat ≤ a ∧ a < 0x80) → c.mem.read a = d.mem.read a

/-- R172 (U5, U6): of a response of 10 to 64 bytes, `PARSE` reads bytes 0 to 2 and `K` to `K + 4`
alone, at the configured `K`, and the result does not depend on `LEN`. -/
def Obligations.ParseReadsOnlyItsFields : Prop :=
  (rspOffset .k3 = 3 ∧ rspOffset .k4 = 4 ∧ rspOffset .k5 = 5) ∧
  ∀ (s : State) (l : BitVec 7) (m : Memory),
    10 ≤ s.cfe.len.toNat → s.cfe.len.toNat ≤ 64 → 10 ≤ l.toNat → l.toNat ≤ 64 →
    (∀ j, j < 3 ∨ (rspOffset Config.rspCmdOff ≤ j ∧ j ≤ rspOffset Config.rspCmdOff + 4) →
      m.read (0x40 + j) = s.cfe.ibuf j) →
    ∃ c d : Cfe, exec .parse s = .next { s with cfe := c } ∧
      exec .parse { s with cfe := { s.cfe with len := l, mem := m } } = .next { s with cfe := d } ∧
      c.rvalid = d.rvalid ∧ c.rspcmd = d.rspcmd ∧ c.rsppn = d.rsppn ∧ c.err = d.err

/-! ## The register window -/

/-- R24, R25: the value of `STATUS`, with every reserved bit 0. -/
def Obligations.StatusValue : Prop :=
  ∀ c : Cfe, c.status.toNat =
    (if c.pend = none then 0 else 1) + (if c.done then 2 else 0) + (if c.err then 4 else 0) +
      (if c.rvalid then 8 else 0) + 256 * c.errcode.toNat

/-- R22, R31 to R34, R67: a 32-bit read of a register of an idle CFE gives its value, the hard-wired
bits 0, and changes nothing. -/
def Obligations.RegisterReads : Prop :=
  ∀ (s : State) (off : Offset) (v : Word) (rest : List HostOp),
    s.cfe.pend = none → s.script = .read off .w4 :: rest →
    (off = 0x04 ∧ v = s.cfe.status) ∨ (off = 0x08 ∧ v = BitVec.ofNat 32 s.cfe.len.toNat) ∨
      (off = 0x0C ∧ v = BitVec.ofNat 32 s.cfe.crc.toNat) ∨ (off = 0x10 ∧ v = s.cfe.bsize) ∨
      (off = 0x14 ∧ v = BitVec.ofNat 32 s.cfe.rspcmd.toNat) ∨ (off = 0x18 ∧ v = s.cfe.rsppn) →
    ∃ t, step s = .next t ∧ t.cfe = s.cfe ∧ t.script = rest ∧ t.replies = .data v :: s.replies

/-- R62, R67: an aligned read of `n` bytes in `IBUF` or `OBUF` gives byte `off + k` in byte lane `k`,
and changes nothing. -/
def Obligations.BufferReadsAreLittleEndian : Prop :=
  ∀ (s : State) (off : Offset) (n : Width) (rest : List HostOp),
    s.cfe.pend = none → s.script = .read off n :: rest →
    0x40 ≤ off.toNat → off.toNat < 0xC0 → off.toNat % n.bytes = 0 →
    ∃ t v, step s = .next t ∧ t.cfe = s.cfe ∧ t.script = rest ∧ t.replies = .data v :: s.replies ∧
      v.toNat = ∑ k ∈ Finset.range n.bytes, 2 ^ (8 * k) * (s.cfe.mem.read (off.toNat + k)).toNat

/-- R64 to R66: on an idle CFE, a read is answered with data exactly when the access table and the
alignment rule allow it, and with an error response otherwise; either way CFE is unchanged. That the
machine goes on after an error response is R211 (assumption 5). -/
def Obligations.ReadAccessTable : Prop :=
  ∀ (s : State) (off : Offset) (n : Width) (rest : List HostOp),
    s.cfe.pend = none → s.script = .read off n :: rest →
    ∃ t, step s = .next t ∧ t.cfe = s.cfe ∧ t.script = rest ∧
      ((off.toNat % n.bytes = 0 ∧
          ((n = .w4 ∧ 0x04 ≤ off.toNat ∧ off.toNat < 0x1C) ∨
            (0x40 ≤ off.toNat ∧ off.toNat < 0xC0)) →
        ∃ v, t.replies = .data v :: s.replies) ∧
      (¬(off.toNat % n.bytes = 0 ∧
          ((n = .w4 ∧ 0x04 ≤ off.toNat ∧ off.toNat < 0x1C) ∨
            (0x40 ≤ off.toNat ∧ off.toNat < 0xC0))) →
        t.replies = .busError off n .read :: s.replies))

/-- R64 to R66: the same for writes: a forbidden write changes nothing of CFE, an allowed one is
taken. -/
def Obligations.WriteAccessTable : Prop :=
  ∀ (s : State) (off : Offset) (n : Width) (v : Word) (rest : List HostOp),
    s.cfe.pend = none → s.script = .write off n v :: rest →
    ∃ t, step s = .next t ∧ t.script = rest ∧
      ((off.toNat % n.bytes = 0 ∧
          ((n = .w4 ∧ (off = 0x00 ∨ off = 0x08 ∨ off = 0x10)) ∨
            (0x40 ≤ off.toNat ∧ off.toNat < 0x80)) →
        t.replies = .ack :: s.replies) ∧
      (¬(off.toNat % n.bytes = 0 ∧
          ((n = .w4 ∧ (off = 0x00 ∨ off = 0x08 ∨ off = 0x10)) ∨
            (0x40 ≤ off.toNat ∧ off.toNat < 0x80))) →
        t.cfe = s.cfe ∧ t.replies = .busError off n .write :: s.replies))

/-- R68: an aligned write of `n` bytes in `IBUF` stores byte lane `k` at `off + k` and touches nothing
else; R30 and R32: a write to `LEN` stores its low seven bits, one to `BSIZE` all 32. -/
def Obligations.WritesStoreTheirValue : Prop :=
  ∀ (s : State) (v : Word) (rest : List HostOp), s.cfe.pend = none →
    (∀ off n, s.script = .write off n v :: rest →
      0x40 ≤ off.toNat → off.toNat < 0x80 → off.toNat % n.bytes = 0 →
      ∃ t m, step s = .next t ∧ t.script = rest ∧ t.cfe = { s.cfe with mem := m } ∧
        ∀ a, m.read a = if off.toNat ≤ a ∧ a < off.toNat + n.bytes then
            BitVec.ofNat 8 (v.toNat / 2 ^ (8 * (a - off.toNat)))
          else s.cfe.mem.read a) ∧
    (s.script = .write 0x08 .w4 v :: rest →
      ∃ t, step s = .next t ∧ t.script = rest ∧
        t.cfe = { s.cfe with len := BitVec.ofNat 7 (v.toNat % 128) }) ∧
    (s.script = .write 0x10 .w4 v :: rest →
      ∃ t, step s = .next t ∧ t.script = rest ∧ t.cfe = { s.cfe with bsize := v })

/-- R67: reads are idempotent: two equal reads of an idle CFE, one after the other, get the same
reply. -/
def Obligations.ReadsAreIdempotent : Prop :=
  ∀ (s : State) (off : Offset) (n : Width) (rest : List HostOp),
    s.cfe.pend = none → s.script = .read off n :: .read off n :: rest →
    ∃ t r, core.run 2 s = .next t ∧ t.cfe = s.cfe ∧ t.script = rest ∧ t.replies = r :: r :: s.replies

/-- R61: the window stands at `P_BASE`, aligned to 256, and an offset is what is left of a host
address in it. -/
def Obligations.HostAddressesDecode : Prop :=
  Config.pBase % 256 = 0 ∧
  ∀ (addr : Nat) (off : Offset), offsetOf addr = some off ↔ addr = Config.pBase + off.toNat

/-! ## Hazards and faults -/

/-- R235, R240, R207: while a command is pending, a 32-bit read of `STATUS` is answered and changes
nothing of CFE; every other access is a hazard of its kind, also where it would be a `BusFault`. -/
def Obligations.BusyAccessesAreHazards : Prop :=
  ∀ (s : State) (w : Word) (rest : List HostOp), s.cfe.pend = some w → s.delay ≠ 0 →
    (s.script = .read 0x04 .w4 :: rest → ∃ t, step s = .next t ∧ t.cfe = s.cfe ∧ t.script = rest ∧
      t.replies = .data s.cfe.status :: s.replies) ∧
    (∀ off n, s.script = .read off n :: rest → off ≠ 0x04 ∨ n ≠ .w4 →
      step s = .fault (.hazard .readWhileBusy)) ∧
    (∀ v, s.script = .write 0x00 .w4 v :: rest → step s = .fault (.hazard .cmdWhileBusy)) ∧
    (∀ off n v, s.script = .write off n v :: rest → 0x04 ≤ off.toNat →
      step s = .fault (.hazard .writeWhileBusy)) ∧
    (∀ off n v, s.script = .write off n v :: rest → off.toNat < 0x04 →
      ∃ k, step s = .fault (.hazard k))

/-- R200, R210, R211: nothing stops the machine but a hazard: a step faults exactly when the host
makes an access other than a 32-bit read of `STATUS` while a command is pending, and no step is
refused. -/
def Obligations.OnlyHazardsStopTheMachine : Prop :=
  (∀ s : State, isFault (step s) = true ↔
    (s.cfe.pend ≠ none ∧ s.delay ≠ 0 ∧
      ∃ op rest, s.script = op :: rest ∧
        ((∃ off n, op = .read off n ∧ ¬(off = 0x04 ∧ n = .w4)) ∨
          (∃ off n v, op = .write off n v)))) ∧
  (∀ (s : State) (r : Refusal), step s ≠ .refused r)

/-! ## Whole-machine rules

Each names the step that makes the change: a completion ends with `PEND` = none and `DONE` = 1, a taken
write is acknowledged, and the reset input leaves the reset values and is gone from the script. -/

/-- R26, R27, R29, R43: nothing changes `PEND`, `DONE`, `ERR` or `ERRCODE` but the completion of the
pending command, an issue (a 32-bit write to `CMD` while none is pending) and the reset input; reading
`STATUS` clears nothing. -/
def Obligations.OnlyIssueCompletionAndResetWriteStatus : Prop :=
  ∀ s t : State, step s = .next t →
    ¬(t.cfe.pend = s.cfe.pend ∧ t.cfe.done = s.cfe.done ∧ t.cfe.err = s.cfe.err ∧
      t.cfe.errcode = s.cfe.errcode) →
    (s.cfe.pend ≠ none ∧ t.cfe.pend = none ∧ t.cfe.done = true) ∨
    (s.cfe.pend = none ∧ ∃ w rest, s.script = .write 0x00 .w4 w :: rest ∧ t.cfe.pend = some w) ∨
    ∃ rest, s.script = .reset :: rest ∧ t.script = rest ∧ t.cfe = State.reset.cfe

/-- R28, R33, R34: only the completion of `PARSE`, or the reset input, changes `RVALID`, `RSPCMD` or
`RSPPN`; while a `PARSE` is pending they still show the previous values. -/
def Obligations.OnlyParseOrResetChangesTheResponse : Prop :=
  ∀ s t : State, step s = .next t →
    ¬(t.cfe.rvalid = s.cfe.rvalid ∧ t.cfe.rspcmd = s.cfe.rspcmd ∧ t.cfe.rsppn = s.cfe.rsppn) →
    (s.cfe.pend = some 0x00000030 ∧ t.cfe.pend = none ∧ t.cfe.done = true) ∨
    ∃ rest, s.script = .reset :: rest ∧ t.script = rest ∧ t.cfe = State.reset.cfe

/-- R31, R115 to R117: only the completion of a checksum command, or the reset input, changes
`CRC`. -/
def Obligations.OnlyChecksumCommandsOrResetChangeCrc : Prop :=
  ∀ s t : State, step s = .next t → t.cfe.crc ≠ s.cfe.crc →
    ((s.cfe.pend = some 0x00000001 ∨ s.cfe.pend = some 0x00000002 ∨ s.cfe.pend = some 0x00000003) ∧
      t.cfe.pend = none ∧ t.cfe.done = true) ∨
    ∃ rest, s.script = .reset :: rest ∧ t.script = rest ∧ t.cfe = State.reset.cfe

/-- R30, R32, R35: only a host write that is taken while no command is pending, or the reset input,
changes `LEN`, `BSIZE` or a byte of `IBUF`. -/
def Obligations.OnlyTheHostChangesTheInputs : Prop :=
  ∀ s t : State, step s = .next t →
    ¬(t.cfe.len = s.cfe.len ∧ t.cfe.bsize = s.cfe.bsize ∧
      ∀ j, j < 64 → t.cfe.ibuf j = s.cfe.ibuf j) →
    (s.cfe.pend = none ∧ ∃ off n v rest, s.script = .write off n v :: rest ∧ t.script = rest ∧
      t.replies = .ack :: s.replies) ∨
    ∃ rest, s.script = .reset :: rest ∧ t.script = rest ∧ t.cfe = State.reset.cfe

/-- R36: only the successful completion of a build command, or the reset input, changes a byte of
`OBUF`. -/
def Obligations.OnlyBuildsOrResetChangeObuf : Prop :=
  ∀ (s t : State) (j : Nat), step s = .next t → j < 64 → t.cfe.obuf j ≠ s.cfe.obuf j →
    (∃ w, s.cfe.pend = some w ∧ w.toNat ∈ [0x10, 0x11, 0x12, 0x20, 0x21, 0x22, 0x23] ∧
      t.cfe.pend = none ∧ t.cfe.done = true ∧ t.cfe.err = false) ∨
    ∃ rest, s.script = .reset :: rest ∧ t.script = rest ∧ t.cfe = State.reset.cfe

/-! ## Invariants -/

/-- R42: the reset state is legal and its `OBUF` is whole. -/
def Obligations.ResetStateIsLegal : Prop :=
  State.reset.cfe.Legal ∧ State.reset.cfe.ObufWhole

/-- R24, R29, R33, R34, R43, R202: every step from a legal state leads to a legal state. -/
def Obligations.StepKeepsTheStateLegal : Prop :=
  ∀ s t : State, s.cfe.Legal → step s = .next t → t.cfe.Legal

/-- R36, R133: in every step from a state where it is so, `OBUF` holds its reset contents or one whole
frame: no reader sees a partly written one. -/
def Obligations.ObufAlwaysHoldsAWholeFrame : Prop :=
  ∀ s t : State, s.cfe.ObufWhole → step s = .next t → t.cfe.ObufWhole

/-! ## The busy rule and timing -/

/-- R235, R241: a host whose script keeps the busy rule never meets a hazard, whatever the latencies:
each step answers a next state, and the rule still holds there. -/
def Obligations.BusyRuleExcludesHazards : Prop :=
  ∀ s : State, keepsBusyRule s.cfe.busy s.script = true →
    ∃ t, step s = .next t ∧ keepsBusyRule t.cfe.busy t.script = true

/-- R98, R99, R243: the `wait` loop ends. With the command `w` pending and its latency still `delay`
accesses, the loop reads `STATUS` with `BUSY` = 1 `delay` times, the command completes, and one more
read ends the loop. The latency as a number of accesses in the state is the model's form of R243
(assumption 3). -/
def Obligations.WaitEndsAtCompletion : Prop :=
  ∀ (s : State) (w : Word) (rest : List HostOp),
    s.cfe.pend = some w → s.script = .wait :: rest →
    ∃ t u, step { s with delay := 0 } = .next u ∧ core.run (s.delay + 2) s = .next t ∧
      t.cfe = u.cfe ∧ t.cfe.pend = none ∧ t.script = rest ∧
      t.replies = .data u.cfe.status ::
        (List.replicate s.delay (.data s.cfe.status) ++ s.replies)

/-- R243: under the busy rule every run comes to rest: the script ends and no command is pending. That
the latency is a finite number in the state, and that the engine moves when the script is empty, is
the model's form of R243 (assumption 3). -/
def Obligations.EveryLegalRunComesToRest : Prop :=
  ∀ s : State, keepsBusyRule s.cfe.busy s.script = true →
    ∃ k t, core.run k s = .next t ∧ t.Quiet

/-- R72, R99: under the busy rule the outcome does not depend on where completions fall. Two runs of
the same script from the same CFE, with any latency still to run and any latencies to come, leave CFE
in the same state when they come to rest. Where completions fall is the model's form of R243
(assumption 3). -/
def Obligations.TimingDoesNotMatter : Prop :=
  ∀ (s t s' t' : State) (k l : Nat), s.SameButTiming t →
    keepsBusyRule s.cfe.busy s.script = true →
    core.run k s = .next s' → s'.Quiet → core.run l t = .next t' → t'.Quiet →
    s'.cfe = t'.cfe

/-- R233: an idle CFE of which nothing is asked stays as it is. That a step then leaves the state as
it is, rather than there being none, is the model's choice (assumption 7). -/
def Obligations.IdleCfeStaysAsItIs : Prop :=
  ∀ s : State, s.cfe.pend = none → s.script = [] → step s = .next s

/-! ## Parameters -/

/-- R9, R171: the constraint of each parameter, the three offsets `K`, and the default 5 where the
platform sets none; a set value is the one used. -/
def Obligations.ParametersMeetTheirConstraints : Prop :=
  Config.pBase % 256 = 0 ∧ iapPayload.length ≤ 53 ∧ endPayload.length ≤ 53 ∧
  rspOffset .k3 = 3 ∧ rspOffset .k4 = 4 ∧ rspOffset .k5 = 5 ∧
  rspOffset (Config.rspCmdOffOf none) = 5 ∧ (∀ k, Config.rspCmdOffOf (some k) = k) ∧
  Config.rspCmdOff = Config.rspCmdOffOf Config.rspCmdOffSet
end

