-- ==== Sys2Proof/Laws/Memory.lean ====
section
/-! SUPPORT. The laws of memory: what a read gives after each operation, and that every operation
keeps the canonical form. The read laws hold for every list, canonical or not. -/

namespace Sys2Proof.Machine

/-! ## Reads -/

@[simp] theorem Memory.read_nil (a : Nat) : Memory.read [] a = 0 := rfl

@[simp] theorem Memory.read_cons (k : Nat) (b : Byte) (t : Memory) (a : Nat) :
    Memory.read ((k, b) :: t) a = if k = a then b else t.read a := rfl

theorem Memory.read_erase (m : Memory) (a x : Nat) :
    (m.erase a).read x = if x = a then 0 else m.read x := by
  unfold Memory.erase
  induction m with
  | nil => simp
  | cons c t ih =>
    obtain ⟨k, b⟩ := c
    by_cases hk : k = a
    · subst hk
      by_cases hx : x = k <;> simp_all [eq_comm]
    · by_cases hx : x = a
      · subst hx
        simp_all
      · simp_all

theorem Memory.read_insert (m : Memory) (a x : Nat) (b : Byte) :
    m.read a = 0 → (∀ c ∈ m, c.1 ≠ a) → (m.insert a b).read x = if x = a then b else m.read x := by
  intro h0 hne
  induction m with
  | nil => simp [Memory.insert, eq_comm]
  | cons c t ih =>
    obtain ⟨k, v⟩ := c
    have hk : k ≠ a := hne (k, v) (by simp)
    unfold Memory.insert
    split
    · simp [eq_comm]
    · have ht := ih (by simpa [hk] using h0) (fun c hc => hne c (by simp [hc]))
      by_cases hx : x = a
      · subst hx
        simp [hk, ht]
      · simp [ht, hx]

theorem Memory.erase_ne (m : Memory) (a : Nat) : ∀ c ∈ m.erase a, c.1 ≠ a := by
  intro c hc
  simpa using (List.mem_filter.mp hc).2

/-- The read-over-write law. -/
theorem Memory.read_write (m : Memory) (a x : Nat) (b : Byte) :
    (m.write a b).read x = if x = a then b else m.read x := by
  unfold Memory.write
  split
  · rename_i hb
    simp [Memory.read_erase, hb]
  · rw [Memory.read_insert _ _ _ _ (by simp [Memory.read_erase]) (Memory.erase_ne m a), Memory.read_erase]
    split <;> simp_all

/-- The read-over-write law of a run of bytes. -/
theorem Memory.read_writeList (bs : List Byte) (m : Memory) (a x : Nat) :
    (m.writeList a bs).read x =
      if a ≤ x ∧ x < a + bs.length then byteAt bs (x - a) else m.read x := by
  induction bs generalizing m a with
  | nil =>
    simp [Memory.writeList]
  | cons b t ih =>
    rw [Memory.writeList, ih, Memory.read_write]
    by_cases hx : x = a
    · subst hx
      have h1 : ¬(x + 1 ≤ x ∧ x < x + 1 + t.length) := by omega
      simp [byteAt]
    · by_cases hin : a + 1 ≤ x ∧ x < a + 1 + t.length
      · have h2 : a ≤ x ∧ x < a + (b :: t).length := by simp; omega
        rw [if_pos hin, if_pos h2]
        obtain ⟨d, rfl⟩ : ∃ d, x = a + 1 + d := ⟨x - (a + 1), by omega⟩
        have e1 : a + 1 + d - (a + 1) = d := by omega
        have e2 : a + 1 + d - a = d + 1 := by omega
        simp [byteAt, e1, e2]
      · have h2 : ¬(a ≤ x ∧ x < a + (b :: t).length) := by simp; omega
        rw [if_neg hin, if_neg h2, if_neg hx]

@[simp] theorem Memory.length_readList (m : Memory) (a n : Nat) : (m.readList a n).length = n := by
  induction n generalizing a with
  | zero => rfl
  | succ n ih => simp [Memory.readList, ih]

/-- A run of bytes is read byte by byte. -/
theorem Memory.readList_eq_map (m : Memory) (a n : Nat) :
    m.readList a n = (List.range n).map (fun i => m.read (a + i)) := by
  induction n generalizing a with
  | zero => rfl
  | succ n ih =>
    rw [Memory.readList, ih, List.range_succ_eq_map]
    simp [Function.comp_def, Nat.add_assoc, Nat.add_comm 1]

theorem Memory.byteAt_readList (m : Memory) (a n i : Nat) (h : i < n) :
    byteAt (m.readList a n) i = m.read (a + i) := by
  simp [byteAt, Memory.readList_eq_map, h]

/-- Two memories that agree on a run give the same bytes for it. -/
theorem Memory.readList_congr (m m' : Memory) (a n : Nat)
    (h : ∀ i, i < n → m.read (a + i) = m'.read (a + i)) : m.readList a n = m'.readList a n := by
  rw [Memory.readList_eq_map, Memory.readList_eq_map]
  exact List.map_congr_left (fun i hi => h i (List.mem_range.mp hi))

/-! ## The canonical form -/

@[simp] theorem Memory.wf_nil : Memory.wf [] = true := rfl

theorem Memory.wfFrom_cons (lo k : Nat) (b : Byte) (t : Memory) :
    Memory.wfFrom lo ((k, b) :: t) = true ↔
      lo ≤ k ∧ k < 0xC0 ∧ b ≠ 0 ∧ Memory.wfFrom (k + 1) t = true := by
  simp [Memory.wfFrom, and_assoc]

theorem Memory.wfFrom_mono (m : Memory) (lo lo' : Nat) (h : lo' ≤ lo)
    (hw : Memory.wfFrom lo m = true) : Memory.wfFrom lo' m = true := by
  cases m with
  | nil => rfl
  | cons c t =>
    obtain ⟨k, b⟩ := c
    rw [Memory.wfFrom_cons] at hw ⊢
    exact ⟨by omega, hw.2⟩

theorem Memory.wfFrom_erase (m : Memory) (lo a : Nat) (hw : Memory.wfFrom lo m = true) :
    Memory.wfFrom lo (m.erase a) = true := by
  unfold Memory.erase
  induction m generalizing lo with
  | nil => rfl
  | cons c t ih =>
    obtain ⟨k, b⟩ := c
    rw [Memory.wfFrom_cons] at hw
    have ht := ih (k + 1) hw.2.2.2
    by_cases hk : k = a
    · simpa [hk] using Memory.wfFrom_mono _ _ _ (by omega) ht
    · simpa [hk, Memory.wfFrom_cons] using ⟨hw.1, hw.2.1, hw.2.2.1, ht⟩

theorem Memory.wfFrom_insert (m : Memory) (lo a : Nat) (b : Byte) (hlo : lo ≤ a) (ha : a < 0xC0)
    (hb : b ≠ 0) (hne : ∀ c ∈ m, c.1 ≠ a) (hw : Memory.wfFrom lo m = true) :
    Memory.wfFrom lo (m.insert a b) = true := by
  induction m generalizing lo with
  | nil => exact (Memory.wfFrom_cons ..).mpr ⟨hlo, ha, hb, rfl⟩
  | cons c t ih =>
    obtain ⟨k, v⟩ := c
    have hk : k ≠ a := hne (k, v) (by simp)
    rw [Memory.wfFrom_cons] at hw
    unfold Memory.insert
    split
    · rw [Memory.wfFrom_cons, Memory.wfFrom_cons]
      exact ⟨hlo, ha, hb, by omega, hw.2⟩
    · rw [Memory.wfFrom_cons]
      exact ⟨hw.1, hw.2.1, hw.2.2.1,
        ih (k + 1) (by omega) (fun c hc => hne c (by simp [hc])) hw.2.2.2⟩

/-- A write inside the buffers keeps the canonical form. -/
theorem Memory.wf_write (m : Memory) (a : Nat) (b : Byte) (hlo : 0x40 ≤ a) (ha : a < 0xC0)
    (hw : m.wf = true) : (m.write a b).wf = true := by
  unfold Memory.write
  split
  · exact Memory.wfFrom_erase m _ a hw
  · rename_i hb
    exact Memory.wfFrom_insert _ _ a b hlo ha hb (Memory.erase_ne m a) (Memory.wfFrom_erase m _ a hw)

/-- A run of writes inside the buffers keeps the canonical form. -/
theorem Memory.wf_writeList (bs : List Byte) (m : Memory) (a : Nat) (hlo : 0x40 ≤ a)
    (ha : a + bs.length ≤ 0xC0) (hw : m.wf = true) : (m.writeList a bs).wf = true := by
  induction bs generalizing m a with
  | nil => exact hw
  | cons b t ih =>
    simp only [List.length_cons] at ha
    exact ih _ _ (by omega) (by omega) (Memory.wf_write m a b hlo (by omega) hw)

end Sys2Proof.Machine
end

