-- ==== Sys2Proof/Laws/State.lean ====
section
/-! SUPPORT. One lemma per field per named update of the state, so that no proof unfolds a record
update. -/

namespace Sys2Proof.Machine

/-! ### Success (R193) -/

@[simp] theorem Cfe.succeed_pend (c : Cfe) : (c.succeed).pend = none := rfl

@[simp] theorem Cfe.succeed_done (c : Cfe) : (c.succeed).done = true := rfl

@[simp] theorem Cfe.succeed_err (c : Cfe) : (c.succeed).err = false := rfl

@[simp] theorem Cfe.succeed_rvalid (c : Cfe) : (c.succeed).rvalid = c.rvalid := rfl

@[simp] theorem Cfe.succeed_errcode (c : Cfe) : (c.succeed).errcode = 0 := rfl

@[simp] theorem Cfe.succeed_len (c : Cfe) : (c.succeed).len = c.len := rfl

@[simp] theorem Cfe.succeed_crc (c : Cfe) : (c.succeed).crc = c.crc := rfl

@[simp] theorem Cfe.succeed_bsize (c : Cfe) : (c.succeed).bsize = c.bsize := rfl

@[simp] theorem Cfe.succeed_rspcmd (c : Cfe) : (c.succeed).rspcmd = c.rspcmd := rfl

@[simp] theorem Cfe.succeed_rsppn (c : Cfe) : (c.succeed).rsppn = c.rsppn := rfl

@[simp] theorem Cfe.succeed_mem (c : Cfe) : (c.succeed).mem = c.mem := rfl


/-! ### `raise CmdError` (R201) -/

@[simp] theorem Cfe.raise_pend (e : CmdErr) (c : Cfe) : (c.raise e).pend = none := rfl

@[simp] theorem Cfe.raise_done (e : CmdErr) (c : Cfe) : (c.raise e).done = true := rfl

@[simp] theorem Cfe.raise_err (e : CmdErr) (c : Cfe) : (c.raise e).err = true := rfl

@[simp] theorem Cfe.raise_rvalid (e : CmdErr) (c : Cfe) : (c.raise e).rvalid = c.rvalid := rfl

@[simp] theorem Cfe.raise_errcode (e : CmdErr) (c : Cfe) : (c.raise e).errcode = e.code := rfl

@[simp] theorem Cfe.raise_len (e : CmdErr) (c : Cfe) : (c.raise e).len = c.len := rfl

@[simp] theorem Cfe.raise_crc (e : CmdErr) (c : Cfe) : (c.raise e).crc = c.crc := rfl

@[simp] theorem Cfe.raise_bsize (e : CmdErr) (c : Cfe) : (c.raise e).bsize = c.bsize := rfl

@[simp] theorem Cfe.raise_rspcmd (e : CmdErr) (c : Cfe) : (c.raise e).rspcmd = c.rspcmd := rfl

@[simp] theorem Cfe.raise_rsppn (e : CmdErr) (c : Cfe) : (c.raise e).rsppn = c.rsppn := rfl

@[simp] theorem Cfe.raise_mem (e : CmdErr) (c : Cfe) : (c.raise e).mem = c.mem := rfl


/-! ### Issue (R190) -/

@[simp] theorem Cfe.issue_pend (w : Word) (c : Cfe) : (c.issue w).pend = some w := rfl

@[simp] theorem Cfe.issue_done (w : Word) (c : Cfe) : (c.issue w).done = false := rfl

@[simp] theorem Cfe.issue_err (w : Word) (c : Cfe) : (c.issue w).err = false := rfl

@[simp] theorem Cfe.issue_rvalid (w : Word) (c : Cfe) : (c.issue w).rvalid = c.rvalid := rfl

@[simp] theorem Cfe.issue_errcode (w : Word) (c : Cfe) : (c.issue w).errcode = 0 := rfl

@[simp] theorem Cfe.issue_len (w : Word) (c : Cfe) : (c.issue w).len = c.len := rfl

@[simp] theorem Cfe.issue_crc (w : Word) (c : Cfe) : (c.issue w).crc = c.crc := rfl

@[simp] theorem Cfe.issue_bsize (w : Word) (c : Cfe) : (c.issue w).bsize = c.bsize := rfl

@[simp] theorem Cfe.issue_rspcmd (w : Word) (c : Cfe) : (c.issue w).rspcmd = c.rspcmd := rfl

@[simp] theorem Cfe.issue_rsppn (w : Word) (c : Cfe) : (c.issue w).rsppn = c.rsppn := rfl

@[simp] theorem Cfe.issue_mem (w : Word) (c : Cfe) : (c.issue w).mem = c.mem := rfl


/-! ### A valid response (R173) -/

@[simp] theorem Cfe.setResponse_some_pend (r : Response) (c : Cfe) : (c.setResponse (some r)).pend = c.pend := rfl

@[simp] theorem Cfe.setResponse_some_done (r : Response) (c : Cfe) : (c.setResponse (some r)).done = c.done := rfl

@[simp] theorem Cfe.setResponse_some_err (r : Response) (c : Cfe) : (c.setResponse (some r)).err = c.err := rfl

@[simp] theorem Cfe.setResponse_some_rvalid (r : Response) (c : Cfe) : (c.setResponse (some r)).rvalid = true := rfl

@[simp] theorem Cfe.setResponse_some_errcode (r : Response) (c : Cfe) : (c.setResponse (some r)).errcode = c.errcode := rfl

@[simp] theorem Cfe.setResponse_some_len (r : Response) (c : Cfe) : (c.setResponse (some r)).len = c.len := rfl

@[simp] theorem Cfe.setResponse_some_crc (r : Response) (c : Cfe) : (c.setResponse (some r)).crc = c.crc := rfl

@[simp] theorem Cfe.setResponse_some_bsize (r : Response) (c : Cfe) : (c.setResponse (some r)).bsize = c.bsize := rfl

@[simp] theorem Cfe.setResponse_some_rspcmd (r : Response) (c : Cfe) : (c.setResponse (some r)).rspcmd = r.command := rfl

@[simp] theorem Cfe.setResponse_some_rsppn (r : Response) (c : Cfe) : (c.setResponse (some r)).rsppn = r.packetNumber := rfl

@[simp] theorem Cfe.setResponse_some_mem (r : Response) (c : Cfe) : (c.setResponse (some r)).mem = c.mem := rfl


/-! ### No valid response (R173) -/

@[simp] theorem Cfe.setResponse_none_pend (c : Cfe) : (c.setResponse none).pend = c.pend := rfl

@[simp] theorem Cfe.setResponse_none_done (c : Cfe) : (c.setResponse none).done = c.done := rfl

@[simp] theorem Cfe.setResponse_none_err (c : Cfe) : (c.setResponse none).err = c.err := rfl

@[simp] theorem Cfe.setResponse_none_rvalid (c : Cfe) : (c.setResponse none).rvalid = false := rfl

@[simp] theorem Cfe.setResponse_none_errcode (c : Cfe) : (c.setResponse none).errcode = c.errcode := rfl

@[simp] theorem Cfe.setResponse_none_len (c : Cfe) : (c.setResponse none).len = c.len := rfl

@[simp] theorem Cfe.setResponse_none_crc (c : Cfe) : (c.setResponse none).crc = c.crc := rfl

@[simp] theorem Cfe.setResponse_none_bsize (c : Cfe) : (c.setResponse none).bsize = c.bsize := rfl

@[simp] theorem Cfe.setResponse_none_rspcmd (c : Cfe) : (c.setResponse none).rspcmd = 0x00 := rfl

@[simp] theorem Cfe.setResponse_none_rsppn (c : Cfe) : (c.setResponse none).rsppn = 0x00000000 := rfl

@[simp] theorem Cfe.setResponse_none_mem (c : Cfe) : (c.setResponse none).mem = c.mem := rfl


/-! ### A reply -/

@[simp] theorem State.reply_cfe (r : Reply) (s : State) : (s.reply r).cfe = s.cfe := rfl

@[simp] theorem State.reply_script (r : Reply) (s : State) : (s.reply r).script = s.script := rfl

@[simp] theorem State.reply_replies (r : Reply) (s : State) : (s.reply r).replies = r :: s.replies := rfl

@[simp] theorem State.reply_delay (r : Reply) (s : State) : (s.reply r).delay = s.delay := rfl

@[simp] theorem State.reply_issued (r : Reply) (s : State) : (s.reply r).issued = s.issued := rfl


/-! ### One access -/

@[simp] theorem State.tick_cfe (s : State) : (s.tick).cfe = s.cfe := rfl

@[simp] theorem State.tick_script (s : State) : (s.tick).script = s.script := rfl

@[simp] theorem State.tick_replies (s : State) : (s.tick).replies = s.replies := rfl

@[simp] theorem State.tick_delay (s : State) : (s.tick).delay = s.delay - 1 := rfl

@[simp] theorem State.tick_issued (s : State) : (s.tick).issued = s.issued := rfl


/-! ### A latency drawn -/

@[simp] theorem State.drawLatency_cfe (s : State) : (s.drawLatency).cfe = s.cfe := rfl

@[simp] theorem State.drawLatency_script (s : State) : (s.drawLatency).script = s.script := rfl

@[simp] theorem State.drawLatency_replies (s : State) : (s.drawLatency).replies = s.replies := rfl

@[simp] theorem State.drawLatency_delay (s : State) : (s.drawLatency).delay = Config.latency s.issued := rfl

@[simp] theorem State.drawLatency_issued (s : State) : (s.drawLatency).issued = s.issued + 1 := rfl


@[simp] theorem complete_eq (f : Cfe → Cfe) (s : State) :
    complete f s = .next { s with cfe := f s.cfe } := rfl

end Sys2Proof.Machine
end

