-- ==== Sys2Proof/Laws/Bus.lean ====
section
/-! SUPPORT. Everything the host's side can do, once for each operation. -/

namespace Sys2Proof.Machine

@[simp] theorem Cfe.busy_iff (c : Cfe) : c.busy = true ↔ c.pend ≠ none := by
  simp [Cfe.busy, Option.isSome_iff_ne_none]

@[simp] theorem Cfe.busy_eq_false (c : Cfe) : c.busy = false ↔ c.pend = none := by
  simp [Cfe.busy]

theorem Cfe.busy_of_none {c : Cfe} (h : c.pend = none) : c.busy = false := by simp [h]

theorem Cfe.busy_of_some {c : Cfe} {w : Word} (h : c.pend = some w) : c.busy = true := by simp [h]

@[simp] theorem length_lanes (n : Nat) (v : Word) : (lanes n v).length = n := by simp [lanes]

theorem byteAt_lanes (n k : Nat) (v : Word) (h : k < n) : byteAt (lanes n v) k = lane v k := by
  simp [byteAt, lanes, h]

/-- The read half of the access table (R64, R65), by offsets. -/
theorem allowed_read_iff (off : Offset) (n : Width) :
    allowed off n .read = true ↔
      off.toNat % n.bytes = 0 ∧
        ((n = .w4 ∧ 0x04 ≤ off.toNat ∧ off.toNat < 0x1C) ∨ (0x40 ≤ off.toNat ∧ off.toNat < 0xC0)) := by
  cases n <;> revert off <;> decide +kernel

/-- The write half of the access table (R64, R65), by offsets. -/
theorem allowed_write_iff (off : Offset) (n : Width) :
    allowed off n .write = true ↔
      off.toNat % n.bytes = 0 ∧
        ((n = .w4 ∧ (off = 0x00 ∨ off = 0x08 ∨ off = 0x10)) ∨ (0x40 ≤ off.toNat ∧ off.toNat < 0x80)) := by
  cases n <;> revert off <;> decide +kernel

/-- A read gets data exactly where the access table allows it. -/
theorem busRead_isSome (off : Offset) (n : Width) (c : Cfe) :
    (c.busRead off n).isSome = allowed off n .read := by
  unfold Cfe.busRead
  split
  · rename_i h
    rw [h]
    unfold allowed at h
    cases hr : regionOf off <;> simp_all [Region.readable]
  · rename_i h
    simpa using h

/-- A write is taken exactly where the access table allows it. -/
theorem busWrite_isSome (off : Offset) (n : Width) (v : Word) (c : Cfe) :
    (c.busWrite off n v).isSome = allowed off n .write := by
  unfold Cfe.busWrite
  split
  · rename_i h
    rw [h]
    unfold allowed at h
    cases hr : regionOf off <;> simp_all [Region.writable]
  · rename_i h
    simpa using h

/-- A run of `n` bytes that starts aligned in `IBUF` ends in it (R65). -/
theorem ibuf_run (off : Offset) (n : Width) (ha : aligned off n = true) (hr : regionOf off = .ibuf) :
    0x40 ≤ off.toNat ∧ off.toNat + n.bytes ≤ 0x80 := by
  have hoff : 0x40 ≤ off.toNat ∧ off.toNat < 0x80 := by
    unfold regionOf at hr
    repeat' split at hr
    all_goals first | (exact absurd hr (by decide)) | omega
  have : off.toNat % n.bytes = 0 := by simpa [aligned] using ha
  cases n <;> simp only [Width.bytes] at * <;> omega

/-- Everything a write can do to an idle CFE (R64, R68). -/
theorem busWrite_cases {off : Offset} {n : Width} {v : Word} {c c' : Cfe}
    (h : c.busWrite off n v = some c') :
    (regionOf off = .cmd ∧ c' = c.issue v) ∨
    (regionOf off = .len ∧ c' = { c with len := v.setWidth 7 }) ∨
    (regionOf off = .bsize ∧ c' = { c with bsize := v }) ∨
    (regionOf off = .ibuf ∧ aligned off n = true ∧
      c' = { c with mem := c.mem.writeList off.toNat (lanes n.bytes v) }) := by
  unfold Cfe.busWrite at h
  split at h
  · rename_i hal
    have hal : aligned off n = true := by
      simp only [allowed, Bool.and_eq_true] at hal
      exact hal.1
    split at h <;> simp_all
  · exact absurd h (by simp)

/-- Everything a read can do. -/
theorem hostRead_cases (off : Offset) (n : Width) (s : State) :
    (s.cfe.pend ≠ none ∧ isStatusRead off n = false ∧ hostRead off n s = .fault (.hazard .readWhileBusy)) ∨
    ((s.cfe.pend = none ∨ isStatusRead off n = true) ∧ ∃ r, hostRead off n s = .next (s.tick.reply r)) := by
  unfold hostRead
  split
  · rename_i h
    left
    simp only [Bool.and_eq_true, Bool.not_eq_true', Cfe.busy_iff] at h
    exact ⟨h.1, h.2, rfl⟩
  · rename_i h
    right
    refine ⟨?_, ?_⟩
    · by_cases hp : s.cfe.pend = none
      · exact .inl hp
      · right
        simpa [hp] using h
    · split <;> exact ⟨_, rfl⟩

/-- Everything a write can do. -/
theorem hostWrite_cases (off : Offset) (n : Width) (v : Word) (s : State) :
    (s.cfe.pend ≠ none ∧ hostWrite off n v s = .fault (.hazard (writeHazard off))) ∨
    (s.cfe.pend = none ∧ s.cfe.busWrite off n v = none ∧
      hostWrite off n v s = .next (s.tick.reply (.busError off n .write))) ∨
    (s.cfe.pend = none ∧ ∃ c t, s.cfe.busWrite off n v = some c ∧ hostWrite off n v s = .next t ∧
      t.cfe = c ∧ t.script = s.script ∧ t.replies = .ack :: s.replies) := by
  unfold hostWrite
  split
  · rename_i h
    exact .inl ⟨by simpa using h, rfl⟩
  · rename_i h
    have hp : s.cfe.pend = none := by simpa using h
    right
    split
    · rename_i c hc
      refine .inr ⟨hp, c, ?_⟩
      split <;> exact ⟨_, hc, rfl, rfl, rfl, rfl⟩
    · rename_i hc
      exact .inl ⟨hp, hc, rfl⟩

/-- Bit 0 of `STATUS` is `BUSY` (R24). -/
theorem status_bit_zero (c : Cfe) : c.status.getLsbD 0 = c.busy := by
  cases h : c.busy <;> simp [Cfe.status, flagBit, h]

@[simp] theorem status_getElem_zero (c : Cfe) : c.status[0] = c.busy := status_bit_zero c

/-- Everything the outside can do in a step that answers a next state: nothing is left to do; an
access leaves CFE alone (a read, or an error response to a write); a write is taken; a turn of the
`wait` loop; reset. -/
theorem hostStep_cases {s t : State} (h : hostStep s = .next t) :
    (s.script = [] ∧ t = s) ∨
    (∃ off n rest r, s.script = .read off n :: rest ∧
      (s.cfe.pend = none ∨ isStatusRead off n = true) ∧ t = ({ s with script := rest }).tick.reply r) ∨
    (∃ off n v rest, s.script = .write off n v :: rest ∧ s.cfe.pend = none ∧
      s.cfe.busWrite off n v = none ∧ t = ({ s with script := rest }).tick.reply (.busError off n .write)) ∨
    (∃ off n v rest c, s.script = .write off n v :: rest ∧ s.cfe.pend = none ∧
      s.cfe.busWrite off n v = some c ∧ t.cfe = c ∧ t.script = rest ∧ t.replies = .ack :: s.replies) ∨
    (∃ rest, s.script = .wait :: rest ∧
      t = ({ s with script := if s.cfe.busy then .wait :: rest else rest }).tick.reply
        (.data s.cfe.status)) ∨
    (∃ rest, s.script = .reset :: rest ∧ t = { s with cfe := Cfe.reset, script := rest }) := by
  unfold hostStep at h
  split at h
  · rename_i hs
    cases h
    exact .inl ⟨hs, rfl⟩
  · rename_i off n rest hs
    rcases hostRead_cases off n { s with script := rest } with ⟨-, -, e⟩ | ⟨ha, r, e⟩ <;> rw [e] at h <;> cases h
    exact .inr (.inl ⟨off, n, rest, r, hs, ha, rfl⟩)
  · rename_i off n v rest hs
    rcases hostWrite_cases off n v { s with script := rest } with
      ⟨-, e⟩ | ⟨hp, hb, e⟩ | ⟨hp, c, u, hc, e, h1, h2, h3⟩ <;> rw [e] at h <;> cases h
    · exact .inr (.inr (.inl ⟨off, n, v, rest, hs, hp, hb, rfl⟩))
    · exact .inr (.inr (.inr (.inl ⟨off, n, v, rest, c, hs, hp, hc, h1, h2, h3⟩)))
  · rename_i rest hs
    cases h
    exact .inr (.inr (.inr (.inr (.inl ⟨rest, hs, by rw [status_bit_zero]⟩))))
  · rename_i rest hs
    cases h
    exact .inr (.inr (.inr (.inr (.inr ⟨rest, hs, rfl⟩))))

end Sys2Proof.Machine
end

