-- ==== Sys2Proof/Laws/Checksum.lean ====
section
/-! SUPPORT. Everything the checksum commands can do, and the bytes they take. -/

namespace Sys2Proof.Machine

@[simp] theorem length_input (c : Cfe) : c.input.length = c.len.toNat := by
  simp [Cfe.input, Cfe.count]

/-- `IBUF[0..LEN)`, byte by byte. -/
theorem input_eq_map (c : Cfe) : c.input = (List.range c.len.toNat).map c.ibuf :=
  Memory.readList_eq_map ..

theorem byteAt_input (c : Cfe) (i : Nat) (h : i < c.len.toNat) : byteAt c.input i = c.ibuf i :=
  Memory.byteAt_readList _ _ _ _ h

/-- The input depends on no byte from `LEN` on. -/
theorem input_congr (c d : Cfe) (hl : c.len = d.len)
    (h : ∀ i, i < c.len.toNat → c.ibuf i = d.ibuf i) : c.input = d.input := by
  rw [input_eq_map, input_eq_map, ← hl]
  exact List.map_congr_left (fun i hi => h i (List.mem_range.mp hi))

/-- Everything `CRCUPD` can do (R116). -/
theorem crcupd_cases (c : Cfe) :
    (64 < c.len.toNat ∧ c.crcupd = c.raise .lengthExceeded) ∨
      (c.len.toNat ≤ 64 ∧ c.crcupd = Cfe.succeed { c with crc := crcFold c.crc c.input }) := by
  unfold Cfe.crcupd
  split <;> [left; right] <;> constructor <;> first | rfl | (simp at *; omega)

/-- Everything `CRCCALC` can do (R117). -/
theorem crccalc_cases (c : Cfe) :
    (64 < c.len.toNat ∧ c.crccalc = c.raise .lengthExceeded) ∨
      (c.len.toNat ≤ 64 ∧ c.crccalc = Cfe.succeed { c with crc := crc16 c.input }) := by
  unfold Cfe.crccalc
  split <;> [left; right] <;> constructor <;> first | rfl | (simp at *; omega)

end Sys2Proof.Machine
end

