-- ==== Sys2Proof/Laws/Frame.lean ====
section
/-! SUPPORT. The size of a frame, and everything the build operations can do. -/

namespace Sys2Proof.Machine

@[simp] theorem length_frameBody (m : Byte) (p : List Byte) :
    (frameBody m p).length = p.length + 9 := by
  simp [frameBody]

/-- A payload of the domain of `frame` (R131) gives 64 bytes. -/
theorem length_frame (m : Byte) (p : List Byte) (h : p.length ≤ 53) : (frame m p).length = 64 := by
  simp [frame]; omega

theorem length_iapPayload : iapPayload.length ≤ 53 := by
  have := Config.iapLen.isLt
  simp [iapPayload, configPayload]; omega

theorem length_endPayload : endPayload.length ≤ 53 := by
  have := Config.endLen.isLt
  simp [endPayload, configPayload]; omega

@[simp] theorem length_bsizeBytes (c : Cfe) : c.bsizeBytes.length = 4 := by
  simp [Cfe.bsizeBytes, le32, lanes]

/-- What a frame leaves in memory: the frame in `OBUF`, everything else as it was. -/
theorem read_emit (m : Byte) (p : List Byte) (c : Cfe) (h : p.length ≤ 53) (a : Nat) :
    (c.emit m p).mem.read a =
      if 0x80 ≤ a ∧ a < 0xC0 then byteAt (frame m p) (a - 0x80) else c.mem.read a := by
  simp only [Cfe.emit, Cfe.succeed_mem, Memory.read_writeList, length_frame m p h, Lit.obufBase]

theorem wf_emit (m : Byte) (p : List Byte) (c : Cfe) (h : p.length ≤ 53) (hw : c.mem.wf = true) :
    (c.emit m p).mem.wf = true :=
  Memory.wf_writeList _ _ _ (by decide) (by simp [length_frame m p h]) hw

/-- Everything a build from `IBUF` can do (R133): refuse, or emit a frame whose payload is within
the limit. -/
theorem build_cases (max : Nat) (m : Byte) (c : Cfe) :
    (max < c.len.toNat ∧ c.build max m = c.raise .lengthExceeded) ∨
      (c.len.toNat ≤ max ∧ c.build max m = c.emit m c.input) := by
  unfold Cfe.build Cfe.count
  split <;> [left; right] <;> constructor <;> first | rfl | omega

end Sys2Proof.Machine
end

