-- ==== Sys2Proof/Laws/Parser.lean ====
section
/-! SUPPORT. Everything `PARSE` can do. -/

namespace Sys2Proof.Machine

theorem rspOffset_cases (k : RspCmdOff) : rspOffset k = 3 ∨ rspOffset k = 4 ∨ rspOffset k = 5 := by
  cases k <;> simp [rspOffset]

/-- Everything `PARSE` can do (R173): one of two errors with the result cleared, a valid response, or
none. -/
theorem parse_cases (k : RspCmdOff) (c : Cfe) :
    (64 < c.len.toNat ∧ c.parse k = (c.setResponse none).raise .lengthExceeded) ∨
      (c.len.toNat < 10 ∧ c.parse k = (c.setResponse none).raise .shortResponse) ∨
      (10 ≤ c.len.toNat ∧ c.len.toNat ≤ 64 ∧
        ((c.input.take 3 = [0xA5, 0x5A, 0xFF] ∧
            c.parse k = (c.setResponse (some
              { command := byteAt c.input (rspOffset k),
                packetNumber := rdLe32 c.input (rspOffset k + 1) })).succeed) ∨
          (c.input.take 3 ≠ [0xA5, 0x5A, 0xFF] ∧ c.parse k = (c.setResponse none).succeed))) := by
  unfold Cfe.parse
  split
  · exact .inl ⟨by assumption, rfl⟩
  · split
    · exact .inr (.inl ⟨by assumption, rfl⟩)
    · refine .inr (.inr ⟨by simp at *; omega, by simp at *; omega, ?_⟩)
      by_cases ht : c.input.take 3 = [0xA5, 0x5A, 0xFF]
      · exact .inl ⟨ht, by rw [parseResponse, if_pos ht]⟩
      · exact .inr ⟨ht, by rw [parseResponse, if_neg ht]⟩

end Sys2Proof.Machine
end

