-- ==== Sys2Proof/Laws/PerInstr.lean ====
section
/-! SUPPORT. Laws stated for each instruction as syntax. -/

namespace Sys2Proof.Laws.Fields

/-- A command's word has `RSV` = 0 (R91), and its opcode's high nibble names its family (R93). -/
def Statement (i : Instr) : Prop :=
  i.wellFormed = true ∧ rsvField (encode i) = 0 ∧ (opField (encode i)).toNat / 16 ≤ 3

theorem nop : Statement .nop := ⟨rfl, rfl, by decide⟩
theorem crcinit : Statement .crcinit := ⟨rfl, rfl, by decide⟩
theorem crcupd : Statement .crcupd := ⟨rfl, rfl, by decide⟩
theorem crccalc : Statement .crccalc := ⟨rfl, rfl, by decide⟩
theorem bldupg : Statement .bldupg := ⟨rfl, rfl, by decide⟩
theorem bldiap : Statement .bldiap := ⟨rfl, rfl, by decide⟩
theorem bldend : Statement .bldend := ⟨rfl, rfl, by decide⟩
theorem bldfw : Statement .bldfw := ⟨rfl, rfl, by decide⟩
theorem bldver : Statement .bldver := ⟨rfl, rfl, by decide⟩
theorem bldbsz : Statement .bldbsz := ⟨rfl, rfl, by decide⟩
theorem bldbdat : Statement .bldbdat := ⟨rfl, rfl, by decide⟩
theorem parse : Statement .parse := ⟨rfl, rfl, by decide⟩

end Sys2Proof.Laws.Fields
end

