-- ==== Sys2Proof/Laws/Step.lean ====
section
/-! SUPPORT. Everything a step can do. -/

namespace Sys2Proof.Machine

/-- What command `i` does to CFE: the function each meaning completes with. -/
def cmdEffect (i : Instr) (c : Cfe) : Cfe :=
  match i with
  | .nop => c.succeed
  | .crcinit => c.crcinit
  | .crcupd => c.crcupd
  | .crccalc => c.crccalc
  | .bldupg => c.emit Lit.modeUpg Lit.upgPayload
  | .bldiap => c.emit Config.iapMode iapPayload
  | .bldend => c.emit Config.endMode endPayload
  | .bldfw => c.build Lit.fwMax Lit.modeFw
  | .bldver => c.build Lit.fwMax Lit.modeVer
  | .bldbsz => c.emit Lit.modeBsz c.bsizeBytes
  | .bldbdat => c.build Lit.bulkMax Lit.modeBdat
  | .parse => c.parse Config.rspCmdOff

/-- A command's completion step changes CFE alone, and always answers a next state (R192). -/
theorem exec_eq (i : Instr) (s : State) : exec i s = .next { s with cfe := cmdEffect i s.cfe } := by
  cases i <;> rfl

/-- What the completion of a command word does to CFE, illegal words included (R191, R192). -/
def wordEffect (w : Word) (c : Cfe) : Cfe :=
  match decodeWord w with
  | .command i => cmdEffect i c
  | .illegal _ => c.raise .illegalCommand

/-- The two agents: a step is the completion of the pending word, or the host's next operation. -/
theorem step_cases (s : State) :
    (∃ w, s.cfe.pend = some w ∧ (s.delay = 0 ∨ s.script = []) ∧
      step s = .next { s with cfe := wordEffect w s.cfe }) ∨
    ((s.cfe.pend = none ∨ (s.delay ≠ 0 ∧ s.script ≠ [])) ∧ step s = hostStep s) := by
  unfold step nextCommand
  by_cases h : s.delay = 0 ∨ s.script = []
  · rw [if_pos h]
    cases hp : s.cfe.pend with
    | none => exact .inr ⟨.inl rfl, rfl⟩
    | some w =>
      refine .inl ⟨w, rfl, h, ?_⟩
      cases hd : decodeWord w <;> simp [wordEffect, hd, exec_eq, completeIllegal]
  · rw [if_neg h]
    exact .inr ⟨.inr (by simpa using h), rfl⟩

/-- With nothing pending, the outside moves. -/
theorem step_of_idle {s : State} (h : s.cfe.pend = none) : step s = hostStep s := by
  rcases step_cases s with ⟨w, hw, -, -⟩ | ⟨-, hs⟩
  · simp [h] at hw
  · exact hs

/-- With latency still to run and something left in the script, the outside moves. -/
theorem step_of_delay {s : State} (h : s.delay ≠ 0) (h' : s.script ≠ []) : step s = hostStep s := by
  rcases step_cases s with ⟨w, -, hd, -⟩ | ⟨-, hs⟩
  · exact absurd hd (by simp [h, h'])
  · exact hs

/-- With a command pending and its latency run out, or nothing left in the script, the engine
moves. -/
theorem step_of_engine {s : State} {w : Word} (hp : s.cfe.pend = some w)
    (hd : s.delay = 0 ∨ s.script = []) : step s = .next { s with cfe := wordEffect w s.cfe } := by
  rcases step_cases s with ⟨w', hw, -, hs⟩ | ⟨h, -⟩
  · rw [hp] at hw
    cases hw
    exact hs
  · rcases h with h | ⟨h1, h2⟩
    · simp [hp] at h
    · exact absurd hd (by simp [h1, h2])

/-- Every completion ends with nothing pending and `DONE` set (R192). -/
theorem cmdEffect_done (i : Instr) (c : Cfe) :
    (cmdEffect i c).pend = none ∧ (cmdEffect i c).done = true := by
  cases i <;> simp only [cmdEffect, Cfe.crcinit, Cfe.crcupd, Cfe.crccalc, Cfe.emit, Cfe.build, Cfe.parse]
  all_goals (repeat' split) <;> exact ⟨rfl, rfl⟩

theorem wordEffect_done (w : Word) (c : Cfe) :
    (wordEffect w c).pend = none ∧ (wordEffect w c).done = true := by
  unfold wordEffect
  cases decodeWord w with
  | command i => exact cmdEffect_done i c
  | illegal _ => exact ⟨rfl, rfl⟩

end Sys2Proof.Machine
end

