-- ==== Sys2Proof/Laws/Run.lean ====
section
/-! SUPPORT. Runs of several steps. -/

namespace Sys2Proof.Machine

@[simp] theorem run_zero (s : State) : core.run 0 s = .next s := rfl

/-- A run goes on from the next state. -/
theorem run_succ {s t : State} (k : Nat) (h : step s = .next t) : core.run (k + 1) s = core.run k t := by
  have hc : core.step s = .next t := h
  simp only [Host.Core.run, hc]

/-- A longer run starts with a step. -/
theorem run_succ_next {s t : State} {k : Nat} (h : core.run (k + 1) s = .next t) :
    ∃ u, step s = .next u ∧ core.run k u = .next t := by
  cases hs : step s with
  | next u => exact ⟨u, rfl, by rwa [run_succ k hs] at h⟩
  | fault r =>
    have hc : core.step s = .fault r := hs
    simp only [Host.Core.run, hc] at h
    cases h
  | refused r =>
    have hc : core.step s = .refused r := hs
    simp only [Host.Core.run, hc] at h
    cases h

end Sys2Proof.Machine
end

