-- ==== Sys2Proof/Tests/Slice0.lean ====
section
/-! SUPPORT. The model's own tests. Expected values come from the spec: the encoding table R93, the
vectors V-* and the programs P* of 95_test_vectors.md, and the examples of the command rules. The
witnesses at the end show states that meet the hypotheses of the obligations. -/

namespace Sys2Proof.Tests

open Sys2Proof Sys2Proof.Machine

/-! ## Helpers -/

/-- CFE after reset, but for the bytes of `IBUF` from index 0 on, and `LEN`. -/
def loaded (bs : List Byte) (len : BitVec 7) : Cfe :=
  { Cfe.reset with mem := Memory.writeList [] 0x40 bs, len := len }

/-- A machine with a given CFE and script. -/
def machine (c : Cfe) (script : List HostOp := []) (delay : Nat := 0) : State :=
  { State.reset with cfe := c, script := script, delay := delay }

/-- One field of CFE after a step. -/
def after {α : Type} (o : Host.Outcome State Fault Refusal) (f : Cfe → α) : Option α :=
  match o with
  | .next s => some (f s.cfe)
  | .fault _ => none
  | .refused _ => none

/-- The newest reply after a step. -/
def answer (o : Host.Outcome State Fault Refusal) : Option Reply :=
  match o with
  | .next s => s.replies.head?
  | .fault _ => none
  | .refused _ => none

/-- The fault of a step. -/
def faultOf (o : Host.Outcome State Fault Refusal) : Option Fault :=
  match o with
  | .next _ => none
  | .fault f => some f
  | .refused _ => none

/-- `n` bytes of `OBUF` from index `k` on. -/
def obufBytes (k n : Nat) (c : Cfe) : List Byte := c.mem.readList (0x80 + k) n

/-- What a build leaves in `OBUF` are the bytes of its frame. -/
theorem obufBytes_emit (k n : Nat) (m : Byte) (p : List Byte) (c : Cfe) (hp : p.length ≤ 53)
    (hk : k + n ≤ 64) : obufBytes k n (c.emit m p) = ((frame m p).drop k).take n := by
  have hf := length_frame m p hp
  apply List.ext_getElem
  · simp [obufBytes, hf]; omega
  · intro i h1 h2
    have hi : i < n := by simpa [obufBytes] using h1
    simp only [obufBytes, Memory.readList_eq_map, List.getElem_map, List.getElem_range, List.getElem_take,
      List.getElem_drop, read_emit m p c hp]
    rw [if_pos (by omega), show 0x80 + k + i - 0x80 = k + i by omega, byteAt, List.getD_eq_getElem _ _ (by omega)]

/-- The bytes `00 01 02 ...` of the vectors. -/
def ramp (n : Nat) : List Byte := (List.range n).map (BitVec.ofNat 8)

/-- The 12 bytes of MYU §8 (95_test_vectors.md, 1.1). -/
def myu : List Byte := [0xA5, 0x5A, 0xFC, 0x2E, 0x04, 0x2B, 0x01, 0x00, 0x01, 0xFC, 0x5A, 0xA5]

/-- The buffer `B` of the parser vectors (95_test_vectors.md, 2.4). -/
def respB : List Byte := [0xA5, 0x5A, 0xFF, 0x2E, 0x0A, 0x74, 0x01, 0x00, 0x00, 0x00]

/-! ## Decoding: R93's words, bit by bit (`RSV` then `OP`, R91) -/

theorem test_decode_nop :
    decodeWord 0b00000000000000000000000000000000 = .command .nop := by decide
theorem test_decode_crcinit :
    decodeWord 0b00000000000000000000000000000001 = .command .crcinit := by decide
theorem test_decode_crcupd :
    decodeWord 0b00000000000000000000000000000010 = .command .crcupd := by decide
theorem test_decode_crccalc :
    decodeWord 0b00000000000000000000000000000011 = .command .crccalc := by decide
theorem test_decode_bldupg :
    decodeWord 0b00000000000000000000000000010000 = .command .bldupg := by decide
theorem test_decode_bldiap :
    decodeWord 0b00000000000000000000000000010001 = .command .bldiap := by decide
theorem test_decode_bldend :
    decodeWord 0b00000000000000000000000000010010 = .command .bldend := by decide
theorem test_decode_bldfw :
    decodeWord 0b00000000000000000000000000100000 = .command .bldfw := by decide
theorem test_decode_bldver :
    decodeWord 0b00000000000000000000000000100001 = .command .bldver := by decide
theorem test_decode_bldbsz :
    decodeWord 0b00000000000000000000000000100010 = .command .bldbsz := by decide
theorem test_decode_bldbdat :
    decodeWord 0b00000000000000000000000000100011 = .command .bldbdat := by decide
theorem test_decode_parse :
    decodeWord 0b00000000000000000000000000110000 = .command .parse := by decide

/-- V-E3 to V-E7, V-E12: illegal words, by name. -/
theorem test_decode_illegal :
    decodeWord 0x00000004 = .illegal .unlistedOpcode ∧ decodeWord 0x00000013 = .illegal .unlistedOpcode ∧
    decodeWord 0x00000024 = .illegal .unlistedOpcode ∧ decodeWord 0x00000031 = .illegal .unlistedOpcode ∧
    decodeWord 0x000000FF = .illegal .unlistedOpcode ∧ decodeWord 0x00000100 = .illegal .reservedBits ∧
    decodeWord 0x80000030 = .illegal .reservedBits ∧ decodeWord 0x00000120 = .illegal .reservedBits ∧
    decodeWord 0xFFFFFFFF = .illegal .reservedBits := by decide

theorem test_decodeTableWord :
    decodeTableWord 32 0x21 = some .bldver ∧ decodeTableWord 32 0x04 = none ∧
    decodeTableWord 8 0x0130 = some .parse ∧ decodeTableWord 40 0x00 = none := by decide

/-- The first step after reset runs the placed command: V-E1 and V-P10. -/
theorem test_withFetchWord :
    after (step (State.reset.withFetchWord 32 0x00)) Cfe.status = some 0x00000002 ∧
    after (step (State.reset.withFetchWord 32 0x30)) Cfe.status = some 0x00000306 ∧
    after (step (State.reset.withFetchWord 32 0x04)) Cfe.status = some 0x00000206 := by decide

/-! ## Well-formedness: one refused term for each check -/

theorem test_wf_base : baseOk 0x1000 = true ∧ baseOk 0x1080 = false := by decide
theorem test_wf_rspOffset :
    rspOffsetOk 3 = true ∧ rspOffsetOk 5 = true ∧ rspOffsetOk 2 = false ∧ rspOffsetOk 6 = false := by decide
theorem test_wf_payload : payloadOk (ramp 53) = true ∧ payloadOk (ramp 54) = false := by decide
theorem test_wf_load : loadOk (ramp 64) = true ∧ loadOk (ramp 65) = false := by decide
/-- R64, R65: a forbidden direction, a wrong width, a misaligned and a reserved offset. -/
theorem test_wf_hostOp :
    (wr32 0x00 1).wellFormed = true ∧ (rd32 0x00).wellFormed = false ∧ (wr16 0x00 1).wellFormed = false ∧
    (wr32 0x42 0).wellFormed = false ∧ (rd32 0x1C).wellFormed = false ∧ (wr8 0x80 0).wellFormed = false := by
  decide
theorem test_wf_instr : Instr.wellFormed .parse = true := by decide

/-! ## The checksum function (vectors of 2.1) -/

theorem test_crc_one_byte :
    crc16 [] = 0xFFFF ∧ crc16 [0x00] = 0x40BF ∧ crc16 [0xFF] = 0x00FF ∧ crc16 [0x01] = 0x807E ∧
    crc16 [0x80] = 0xE0BE ∧ crc16 [0xA5] = 0x3B7F ∧ crcByte 0 0 = 0 ∧ crcByte 0 1 = 0xC0C1 ∧
    crcByte 0x1234 0 = 0xD713 := by decide +kernel
theorem test_crc_sequences :
    crc16 [0x31, 0x32, 0x33, 0x34, 0x35, 0x36, 0x37, 0x38, 0x39] = 0x4B37 ∧ crc16 myu = 0x7C7B ∧
    crc16 (List.replicate 64 0xFF) = 0xBF01 ∧ crc16 (ramp 64) = 0x08D9 ∧
    crc16 (myu ++ [0x7C, 0x7B]) = 0xF243 ∧ crc16 (myu ++ [0x7B, 0x7C]) = 0x0000 := by decide +kernel

/-! ## The commands -/

/-- V-E2, V-E10: `NOP` clears a sticky error and keeps `RVALID`. -/
theorem test_nop :
    after (exec .nop (machine { Cfe.reset with done := true, err := true, errcode := 2 })) Cfe.status =
      some 0x00000002 ∧
    after (exec .nop (machine { Cfe.reset with done := true, err := true, errcode := 2, rvalid := true }))
      Cfe.status = some 0x0000000A := by decide

/-- The example of R115. -/
theorem test_crcinit :
    after (exec .crcinit (machine { Cfe.reset with crc := 0x1234 })) (fun c => (c.crc, c.status)) =
      some (0xFFFF, 0x00000002) := by decide

/-- V-K5. -/
theorem test_crcupd_folds :
    after (exec .crcupd (machine { loaded [0x36, 0x37, 0x38, 0x39] 4 with crc := 0xA471 })) Cfe.crc =
      some 0x4B37 := by decide +kernel
/-- V-K8. -/
theorem test_crcupd_refuses :
    after (exec .crcupd (machine { Cfe.reset with crc := 0x7C7B, len := 127 }))
      (fun c => (c.crc, c.status)) = some (0x7C7B, 0x00000106) := by decide

/-- V-K6 and MYU §8: the earlier `CRC` is not read. -/
theorem test_crccalc :
    after (exec .crccalc (machine { loaded [0x36, 0x37, 0x38, 0x39] 4 with crc := 0xA471 })) Cfe.crc =
      some 0xB06D ∧
    after (exec .crccalc (machine (loaded myu 12))) Cfe.crc = some 0x7C7B := by decide +kernel
/-- V-K9, V-K10: the largest input, and one byte more. -/
theorem test_crccalc_limit :
    after (exec .crccalc (machine { Cfe.reset with len := 64 })) Cfe.crc = some 0x2F40 ∧
    after (exec .crccalc (machine { Cfe.reset with len := 65, rvalid := true })) Cfe.status =
      some 0x0000010E := by decide +kernel

/-- V-F1, V-F20. -/
theorem test_bldupg :
    after (exec .bldupg (machine { Cfe.reset with len := 127 })) (obufBytes 0 64) =
      some (myu ++ [0x7C, 0x7B] ++ List.replicate 50 0x00) := by
  rw [exec_eq]
  show some (obufBytes 0 64 (Cfe.emit 0x2B [0x01, 0x00, 0x01] _)) = _
  rw [obufBytes_emit _ _ _ _ _ (by decide) (by decide)]
  decide +kernel

/-- The ends of frames: the largest legal content (2.3), V-F5, V-F6, V-F9c, V-F12. -/
theorem test_frame_ends :
    (frame 0x00 (List.replicate 53 0x00)).drop 59 = [0xFC, 0x5A, 0xA5, 0x04, 0x73] ∧
    (frame 0x80 (ramp 52)).drop 58 = [0xFC, 0x5A, 0xA5, 0xAF, 0xD6, 0x00] ∧
    (frame 0x82 (ramp 52)).drop 61 = [0x90, 0x21, 0x00] ∧
    ((frame 0x73 (le32 0xFFFFFFFF)).drop 6).take 9 = [0xFF, 0xFF, 0xFF, 0xFF, 0xFC, 0x5A, 0xA5, 0xD1, 0x76] ∧
    (frame 0x74 (List.replicate 47 0xAA)).drop 53 =
      [0xFC, 0x5A, 0xA5, 0xA5, 0xAF, 0x00, 0x00, 0x00, 0x00, 0x00, 0x00] := by decide +kernel

/-- The structural test of 2.3: `OBUF` holds the frame of the configured content. -/
theorem test_bldiap (s : State) : after (exec .bldiap s) (fun c => c.obuf 5) = some Config.iapMode := by
  rw [exec_eq]
  simp only [after, cmdEffect, Cfe.obuf, read_emit _ _ _ length_iapPayload]
  rfl
theorem test_bldend (s : State) : after (exec .bldend s) (fun c => c.obuf 5) = some Config.endMode := by
  rw [exec_eq]
  simp only [after, cmdEffect, Cfe.obuf, read_emit _ _ _ length_endPayload]
  rfl

/-- V-F4. -/
theorem test_bldfw :
    after (exec .bldfw (machine (loaded (ramp 26) 26))) (obufBytes 32 6) =
      some [0xFC, 0x5A, 0xA5, 0x81, 0x1B, 0x00] := by
  rw [exec_eq]
  show some (obufBytes 32 6 (Cfe.emit 0x80 (loaded (ramp 26) 26).input _)) = _
  rw [obufBytes_emit _ _ _ _ _ (by decide +kernel) (by decide)]
  decide +kernel
/-- V-F14. -/
theorem test_bldfw_refuses :
    after (exec .bldfw (machine { Cfe.reset with len := 53, mem := [(0x8C, 0x7C), (0x8D, 0x7B)] }))
      (fun c => (c.status, obufBytes 12 2 c)) = some (0x00000106, [0x7C, 0x7B]) := by decide

/-- V-F7. -/
theorem test_bldver :
    after (exec .bldver (machine (loaded [] 0))) (obufBytes 0 11) =
      some [0xA5, 0x5A, 0xFC, 0x2E, 0x01, 0x82, 0xFC, 0x5A, 0xA5, 0xF6, 0x5D] := by
  rw [exec_eq]
  show some (obufBytes 0 11 (Cfe.emit 0x82 [] _)) = _
  rw [obufBytes_emit _ _ _ _ _ (by decide) (by decide)]
  decide +kernel
/-- V-F15. -/
theorem test_bldver_refuses :
    after (exec .bldver (machine { Cfe.reset with len := 53 })) Cfe.status = some 0x00000106 := by decide

/-- V-F8, V-F19. -/
theorem test_bldbsz :
    after (exec .bldbsz (machine { Cfe.reset with bsize := 0x12345678, len := 127 })) (obufBytes 0 15) =
      some [0xA5, 0x5A, 0xFC, 0x2E, 0x05, 0x73, 0x78, 0x56, 0x34, 0x12, 0xFC, 0x5A, 0xA5, 0x5C, 0x09] := by
  rw [exec_eq]
  show some (obufBytes 0 15 (Cfe.emit 0x73 [0x78, 0x56, 0x34, 0x12] _)) = _
  rw [obufBytes_emit _ _ _ _ _ (by decide) (by decide)]
  decide +kernel

/-- V-F11. -/
theorem test_bldbdat :
    after (exec .bldbdat (machine (loaded [0x11, 0x22, 0x33] 3))) (obufBytes 0 14) =
      some [0xA5, 0x5A, 0xFC, 0x2E, 0x04, 0x74, 0x11, 0x22, 0x33, 0xFC, 0x5A, 0xA5, 0x56, 0x20] := by
  rw [exec_eq]
  show some (obufBytes 0 14 (Cfe.emit 0x74 [0x11, 0x22, 0x33] _)) = _
  rw [obufBytes_emit _ _ _ _ _ (by decide) (by decide)]
  decide +kernel
/-- V-F16. -/
theorem test_bldbdat_refuses :
    after (exec .bldbdat (machine { Cfe.reset with len := 48 })) Cfe.status = some 0x00000106 := by decide

/-- V-P1 to V-P3: `B` at each of the three offsets. -/
theorem test_parse_valid :
    (fun c : Cfe => (c.status, c.rspcmd, c.rsppn)) ((loaded respB 10).parse .k5) =
      (0x0000000A, 0x74, 0x00000001) ∧
    (fun c : Cfe => (c.status, c.rspcmd, c.rsppn)) ((loaded respB 10).parse .k4) =
      (0x0000000A, 0x0A, 0x00000174) ∧
    (fun c : Cfe => (c.status, c.rspcmd, c.rsppn)) ((loaded respB 10).parse .k3) =
      (0x0000000A, 0x2E, 0x0001740A) := by decide
/-- The default of `P_RSP_CMD_OFF` in R9. -/
theorem test_rspOffset_default : rspOffset (Config.rspCmdOffOf none) = 5 := by decide
/-- V-P14, V-P9, V-P11: a wrong tag and both errors clear an earlier result. -/
theorem test_parse_clears :
    after (exec .parse (machine { loaded [0xA5, 0x5A, 0xFC] 10 with rvalid := true, rspcmd := 0x74, rsppn := 1 }))
      (fun c => (c.status, c.rspcmd, c.rsppn)) = some (0x00000002, 0x00, 0x00000000) ∧
    after (exec .parse (machine { loaded respB 9 with rvalid := true, rspcmd := 0x74, rsppn := 1 }))
      (fun c => (c.status, c.rspcmd, c.rsppn)) = some (0x00000306, 0x00, 0x00000000) ∧
    after (exec .parse (machine { loaded respB 65 with rvalid := true, rspcmd := 0x74, rsppn := 1 }))
      (fun c => (c.status, c.rspcmd, c.rsppn)) = some (0x00000106, 0x00, 0x00000000) := by decide

/-- V-E9: an illegal word keeps `RVALID` and the response. -/
theorem test_illegal :
    after (step (machine { Cfe.reset with pend := some 0x04, rvalid := true, rspcmd := 0x74, rsppn := 1 }))
      (fun c => (c.status, c.rspcmd, c.rsppn)) = some (0x0000020E, 0x74, 0x00000001) := by decide

/-! ## The bus (vectors of 2.6 and 2.7) -/

/-- V-B1 to V-B6, on an idle CFE. -/
theorem test_bus_faults :
    answer (step (machine Cfe.reset [rd32 0x00])) = some (.busError 0x00 .w4 .read) ∧
    answer (step (machine Cfe.reset [wr32 0x04 1])) = some (.busError 0x04 .w4 .write) ∧
    answer (step (machine Cfe.reset [rd16 0x04])) = some (.busError 0x04 .w2 .read) ∧
    answer (step (machine Cfe.reset [rd8 0x08])) = some (.busError 0x08 .w1 .read) ∧
    answer (step (machine Cfe.reset [wr32 0x0C 0])) = some (.busError 0x0C .w4 .write) := by decide
/-- V-B5: a 16-bit write to `CMD` issues nothing. -/
theorem test_bus_fault_issues_nothing :
    after (step (machine Cfe.reset [wr16 0x00 1])) Cfe.pend = some none := by decide
/-- V-B11, V-B12. -/
theorem test_write_len :
    after (step (machine Cfe.reset [wr32 0x08 0xFFFFFFFF])) Cfe.len = some 0x7F ∧
    after (step (machine Cfe.reset [wr32 0x08 0x00000080])) Cfe.len = some 0x00 := by decide
/-- V-B13: the byte lanes of a write. -/
theorem test_write_ibuf :
    after (step (machine Cfe.reset [wr32 0x40 0x04030201])) (fun c => c.mem.readList 0x40 5) =
      some [0x01, 0x02, 0x03, 0x04, 0x00] := by decide
/-- The byte lanes of reads after V-F1 (2.3). -/
theorem test_read_obuf :
    answer (step (machine { Cfe.reset with mem := Memory.writeList [] 0x80 (myu ++ [0x7C, 0x7B]) } [rd32 0x8C])) =
      some (.data 0x00007B7C) ∧
    answer (step (machine { Cfe.reset with mem := Memory.writeList [] 0x80 (myu ++ [0x7C, 0x7B]) } [rd16 0x8C])) =
      some (.data 0x7B7C) := by decide
/-- V-E11: the issue clears `DONE`, `ERR` and `ERRCODE` at once. -/
theorem test_issue :
    after (step (machine { Cfe.reset with done := true, err := true, errcode := 1, rvalid := true }
      [wr32 0x00 0x00000001])) Cfe.status = some 0x00000009 := by decide
/-- V-H1 to V-H5. -/
theorem test_hazards :
    faultOf (step (machine { Cfe.reset with pend := some 3 } [wr32 0x00 1] 1)) = some (.hazard .cmdWhileBusy) ∧
    faultOf (step (machine { Cfe.reset with pend := some 3 } [wr32 0x08 1] 1)) = some (.hazard .writeWhileBusy) ∧
    faultOf (step (machine { Cfe.reset with pend := some 3 } [wr32 0x04 1] 1)) = some (.hazard .writeWhileBusy) ∧
    faultOf (step (machine { Cfe.reset with pend := some 3 } [rd32 0x0C] 1)) = some (.hazard .readWhileBusy) ∧
    faultOf (step (machine { Cfe.reset with pend := some 3 } [rd8 0x04] 1)) = some (.hazard .readWhileBusy) := by
  decide
/-- V-H6. -/
theorem test_busy_status_read :
    answer (step (machine { Cfe.reset with pend := some 3, rvalid := true } [rd32 0x04] 1)) =
      some (.data 0x00000009) := by decide
/-- V-R2. -/
theorem test_reset_while_pending :
    after (step (machine { Cfe.reset with pend := some 0x10 } [.reset] 1)) (fun c => (c.pend, c.mem)) =
      some (none, []) := by decide

/-- The expansions of P1 and P2 (R98). -/
theorem test_loads :
    loadwOp myu = [wr32 0x40 0x2EFC5AA5, wr32 0x44 0x00012B04, wr32 0x48 0xA55AFC01, wr32 0x08 12] ∧
    loadOp [0x31, 0x32] = [wr8 0x40 0x31, wr8 0x41 0x32, wr32 0x08 2] ∧
    runOp .crcupd = [wr32 0x00 0x00000002, .wait] := by decide

/-! ## Witnesses: the hypotheses of each obligation can be met -/

/-- A machine with `NOP` pending. -/
def busy (script : List HostOp) (delay : Nat) : State := machine { Cfe.reset with pend := some 0x00 } script delay

theorem witness_ResetDiscardsThePendingCommand :
    (busy [.reset] 1).cfe.pend = some 0x00 ∧ (busy [.reset] 1).script = [.reset] ∧ (busy [.reset] 1).delay ≠ 0 ∧
    (busy [.reset] 0).cfe.pend = some 0x00 ∧ (busy [.reset] 0).script = [.reset] ∧ (busy [.reset] 0).delay = 0 := by
  decide
theorem witness_ResetInputOnIdleCfe :
    (machine Cfe.reset [.reset]).cfe.pend = none ∧ (machine Cfe.reset [.reset]).script = [.reset] := by decide
/-- Both ends of each range of the illegal space, issued on an idle CFE and pending with the engine
to move. -/
theorem witness_IllegalWordsAreAcceptedThenRaise :
    ∀ w ∈ [0x04, 0x0F, 0x13, 0x1F, 0x24, 0x2F, 0x31, 0xFF, 0x100, 0xFFFFFFFF],
      (w / 256 ≠ 0 ∨ (0x04 ≤ w ∧ w ≤ 0x0F) ∨ (0x13 ≤ w ∧ w ≤ 0x1F) ∨ (0x24 ≤ w ∧ w ≤ 0x2F) ∨
        (0x31 ≤ w ∧ w ≤ 0xFF)) ∧
      (machine Cfe.reset [.write 0x00 .w4 (BitVec.ofNat 32 w)]).cfe.pend = none ∧
      (machine { Cfe.reset with pend := some (BitVec.ofNat 32 w) } [] 3).cfe.pend = some (BitVec.ofNat 32 w) ∧
      (machine { Cfe.reset with pend := some (BitVec.ofNat 32 w) } [] 3).script = [] := by decide
theorem witness_StepRunsTheDecodedCommand :
    (busy [.wait] 0).cfe.pend = some 0x00 ∧ (busy [.wait] 0).delay = 0 ∧ (busy [] 1).script = [] ∧
    (busy [] 1).cfe.pend = some 0x00 ∧ decodeWord 0x00 = .command .nop := by decide
theorem witness_CmdWriteIssuesTheCommand :
    (machine Cfe.reset [.write 0x00 .w4 1]).cfe.pend = none ∧
    (machine Cfe.reset [.write 0x00 .w2 1]).cfe.pend = none ∧ Width.w2 ≠ .w4 ∧
    (busy [.write 0x00 .w4 1] 1).cfe.pend ≠ none ∧ (busy [.write 0x00 .w4 1] 1).delay ≠ 0 := by decide
/-- For every command and state: the hypothesis of `NoCommandWritesItsInputs` and
`EachFamilyWritesOnlyItsRegisters`. -/
theorem witness_exec_next (i : Instr) (s : State) : ∃ t, exec i s = .next t := ⟨_, exec_eq i s⟩
/-- The limits of `LEN` on both sides: `CRCUPD`, `CRCCALC`, `BLDFW`, `BLDVER`, `BLDBDAT`. -/
theorem witness_len_limits :
    (machine (loaded [] 64)).cfe.len.toNat ≤ 64 ∧ 64 < (machine (loaded [] 65)).cfe.len.toNat ∧
    (machine (loaded [] 52)).cfe.len.toNat ≤ 52 ∧ 52 < (machine (loaded [] 53)).cfe.len.toNat ∧
    (machine (loaded [] 47)).cfe.len.toNat ≤ 47 ∧ 47 < (machine (loaded [] 48)).cfe.len.toNat := by decide
/-- The chain, with the longest inputs. -/
theorem witness_CrcupdChainEqualsOneChecksum :
    ∃ s a b c d e : State, exec .crcinit s = .next a ∧ b.cfe.crc = a.cfe.crc ∧ b.cfe.len.toNat ≤ 64 ∧
      exec .crcupd b = .next c ∧ d.cfe.crc = c.cfe.crc ∧ d.cfe.len.toNat ≤ 64 ∧ exec .crcupd d = .next e := by
  have h (r : Half) : (machine { Cfe.reset with len := 64, crc := r }).cfe.len.toNat ≤ 64 := by
    show (64 : BitVec 7).toNat ≤ 64
    decide
  exact ⟨State.reset, _, machine { Cfe.reset with len := 64, crc := _ }, _,
    machine { Cfe.reset with len := 64, crc := _ }, _, exec_eq _ _, rfl, h _, exec_eq _ _, rfl, h _, exec_eq _ _⟩
theorem witness_FrameLayout : (ramp 53).length ≤ 53 := by decide
theorem witness_BldverFramesTheInput : (ramp 52).length ≤ 52 := by decide
/-- The four clauses of `PARSE`, at the bounds of `LEN`, with and without the tag. -/
theorem witness_ParseDecidesTheResponse :
    64 < (loaded [] 65).len.toNat ∧ (loaded [] 9).len.toNat < 10 ∧
    (10 ≤ (loaded respB 10).len.toNat ∧ (loaded respB 10).len.toNat ≤ 64) ∧
    ((loaded respB 64).ibuf 0 = 0xA5 ∧ (loaded respB 64).ibuf 1 = 0x5A ∧ (loaded respB 64).ibuf 2 = 0xFF) ∧
    (10 ≤ (loaded myu 64).len.toNat ∧ (loaded myu 64).len.toNat ≤ 64) ∧
    ¬((loaded myu 64).ibuf 0 = 0xA5 ∧ (loaded myu 64).ibuf 1 = 0x5A ∧ (loaded myu 64).ibuf 2 = 0xFF) := by decide
/-- Two memories that differ at `IBUF[3]` and agree below `LEN` = 3 and outside `IBUF`. -/
theorem witness_CommandsIgnoreInputPastLen :
    ∀ a, ¬(0x40 + (machine (loaded [0x11, 0x22, 0x33] 3)).cfe.len.toNat ≤ a ∧ a < 0x80) →
      (Memory.writeList [] 0x40 [0x11, 0x22, 0x33, 0x44]).read a =
        (machine (loaded [0x11, 0x22, 0x33] 3)).cfe.mem.read a := by
  intro a ha
  have hl : (machine (loaded [0x11, 0x22, 0x33] 3)).cfe.len.toNat = 3 := by decide
  rw [hl] at ha
  simp only [machine, loaded, Memory.read_writeList, List.length_cons, List.length_nil]
  by_cases h : 0x40 ≤ a ∧ a < 0x43
  · obtain ⟨h1, h2⟩ := h
    interval_cases a <;> rfl
  · rw [if_neg (by omega), if_neg (by omega)]
/-- Responses of different lengths with the same fields, at the configured offset. -/
theorem witness_ParseReadsOnlyItsFields :
    10 ≤ (machine (loaded respB 10)).cfe.len.toNat ∧ (machine (loaded respB 10)).cfe.len.toNat ≤ 64 ∧
    10 ≤ (64 : BitVec 7).toNat ∧ (64 : BitVec 7).toNat ≤ 64 ∧
    ∀ j, j < 3 ∨ (rspOffset Config.rspCmdOff ≤ j ∧ j ≤ rspOffset Config.rspCmdOff + 4) →
      (loaded respB 10).mem.read (0x40 + j) = (machine (loaded respB 10)).cfe.ibuf j :=
  ⟨by decide, by decide, by decide, by decide, fun _ _ => rfl⟩
/-- A read of each readable register of an idle CFE. -/
theorem witness_RegisterReads :
    ∀ off ∈ ([0x04, 0x08, 0x0C, 0x10, 0x14, 0x18] : List Offset),
      (machine Cfe.reset [.read off .w4]).cfe.pend = none ∧
      (machine Cfe.reset [.read off .w4]).script = [.read off .w4] ∧
      ((off = 0x04 ∧ (0 : Word) = Cfe.reset.status) ∨ (off = 0x08 ∧ (0 : Word) = BitVec.ofNat 32 Cfe.reset.len.toNat) ∨
        (off = 0x0C ∧ (0xFFFF : Word) = BitVec.ofNat 32 Cfe.reset.crc.toNat) ∨
        (off = 0x10 ∧ (0 : Word) = Cfe.reset.bsize) ∨
        (off = 0x14 ∧ (0 : Word) = BitVec.ofNat 32 Cfe.reset.rspcmd.toNat) ∨
        (off = 0x18 ∧ (0 : Word) = Cfe.reset.rsppn)) := by decide
/-- The first and the last buffer read of each width. -/
theorem witness_BufferReadsAreLittleEndian :
    ∀ p ∈ ([(0x40, .w1), (0xBF, .w1), (0x40, .w2), (0xBE, .w2), (0x40, .w4), (0xBC, .w4)] : List (Offset × Width)),
      (machine Cfe.reset [.read p.1 p.2]).cfe.pend = none ∧ 0x40 ≤ p.1.toNat ∧ p.1.toNat < 0xC0 ∧
      p.1.toNat % p.2.bytes = 0 := by decide
/-- Where the clauses of the read table meet: the first and last allowed offsets and their neighbours. -/
theorem witness_ReadAccessTable :
    (∀ p ∈ ([(0x04, .w4), (0x18, .w4), (0x40, .w1), (0xBC, .w4)] : List (Offset × Width)),
      p.1.toNat % p.2.bytes = 0 ∧ ((p.2 = .w4 ∧ 0x04 ≤ p.1.toNat ∧ p.1.toNat < 0x1C) ∨
        (0x40 ≤ p.1.toNat ∧ p.1.toNat < 0xC0))) ∧
    (∀ p ∈ ([(0x00, .w4), (0x1C, .w4), (0x3F, .w1), (0xC0, .w4), (0x08, .w2), (0x42, .w4)] : List (Offset × Width)),
      ¬(p.1.toNat % p.2.bytes = 0 ∧ ((p.2 = .w4 ∧ 0x04 ≤ p.1.toNat ∧ p.1.toNat < 0x1C) ∨
        (0x40 ≤ p.1.toNat ∧ p.1.toNat < 0xC0)))) ∧
    (machine Cfe.reset [.read 0x00 .w4]).cfe.pend = none := by decide
/-- The same for the write table. -/
theorem witness_WriteAccessTable :
    (∀ p ∈ ([(0x00, .w4), (0x08, .w4), (0x10, .w4), (0x40, .w1), (0x7C, .w4)] : List (Offset × Width)),
      p.1.toNat % p.2.bytes = 0 ∧ ((p.2 = .w4 ∧ (p.1 = 0x00 ∨ p.1 = 0x08 ∨ p.1 = 0x10)) ∨
        (0x40 ≤ p.1.toNat ∧ p.1.toNat < 0x80))) ∧
    (∀ p ∈ ([(0x04, .w4), (0x18, .w4), (0x3F, .w1), (0x80, .w4), (0x08, .w1), (0x41, .w2)] : List (Offset × Width)),
      ¬(p.1.toNat % p.2.bytes = 0 ∧ ((p.2 = .w4 ∧ (p.1 = 0x00 ∨ p.1 = 0x08 ∨ p.1 = 0x10)) ∨
        (0x40 ≤ p.1.toNat ∧ p.1.toNat < 0x80)))) ∧
    (machine Cfe.reset [.write 0x04 .w4 0]).cfe.pend = none := by decide
theorem witness_WritesStoreTheirValue :
    (machine Cfe.reset [.write 0x7C .w4 1]).cfe.pend = none ∧ 0x40 ≤ (0x7C : Offset).toNat ∧
    (0x7C : Offset).toNat < 0x80 ∧ (0x7C : Offset).toNat % Width.w4.bytes = 0 ∧
    (machine Cfe.reset [.write 0x08 .w4 1]).script = [.write 0x08 .w4 1] ∧
    (machine Cfe.reset [.write 0x10 .w4 1]).script = [.write 0x10 .w4 1] := by decide
theorem witness_ReadsAreIdempotent :
    (machine Cfe.reset [rd32 0x04, rd32 0x04]).cfe.pend = none ∧
    (machine Cfe.reset [rd32 0x04, rd32 0x04]).script = .read 0x04 .w4 :: .read 0x04 .w4 :: [] := by decide
/-- Each clause of the busy hazard, at the bounds of the `CMD` register. -/
theorem witness_BusyAccessesAreHazards :
    (busy [rd32 0x04] 1).cfe.pend = some 0x00 ∧ (busy [rd32 0x04] 1).delay ≠ 0 ∧
    (busy [rd32 0x04] 1).script = [.read 0x04 .w4] ∧
    (busy [rd8 0x04] 1).script = [.read 0x04 .w1] ∧ Width.w1 ≠ .w4 ∧
    (busy [wr32 0x00 1] 1).script = [.write 0x00 .w4 1] ∧
    (busy [wr32 0x04 1] 1).script = [.write 0x04 .w4 1] ∧ 0x04 ≤ (0x04 : Offset).toNat ∧
    (busy [wr8 0x03 1] 1).script = [.write 0x03 .w1 1] ∧ (0x03 : Offset).toNat < 0x04 := by decide
/-- Both sides of `OnlyHazardsStopTheMachine` occur. -/
theorem witness_OnlyHazardsStopTheMachine :
    isFault (step (busy [rd32 0x0C] 1)) = true ∧ isFault (step (busy [rd32 0x0C] 0)) = false := by decide
/-- Each of the three events changes `STATUS`. -/
theorem witness_OnlyIssueCompletionAndResetWriteStatus :
    after (step (busy [] 0)) Cfe.done = some true ∧ (busy [] 0).cfe.done = false ∧
    after (step (machine Cfe.reset [wr32 0x00 1])) Cfe.pend = some (some 1) ∧
    after (step (machine { Cfe.reset with done := true } [.reset])) Cfe.done = some false := by decide
theorem witness_OnlyParseOrResetChangesTheResponse :
    step (machine { loaded respB 9 with pend := some 0x30, rvalid := true, rspcmd := 0x74 }) =
      .next (machine { loaded respB 9 with done := true, err := true, errcode := 3 }) := by rfl
theorem witness_OnlyChecksumCommandsOrResetChangeCrc :
    after (step (machine { Cfe.reset with pend := some 0x01, crc := 0 })) Cfe.crc = some 0xFFFF := by decide
theorem witness_OnlyTheHostChangesTheInputs :
    after (step (machine Cfe.reset [wr32 0x08 5])) Cfe.len = some 5 ∧ Cfe.reset.len ≠ 5 := by decide
theorem witness_OnlyBuildsOrResetChangeObuf :
    after (step (machine { Cfe.reset with pend := some 0x10 })) (fun c => c.obuf 0) = some 0xA5 ∧
    Cfe.reset.obuf 0 ≠ 0xA5 := by
  refine ⟨?_, by decide⟩
  rw [show step (machine { Cfe.reset with pend := some 0x10 }) =
    exec .bldupg (machine { Cfe.reset with pend := some 0x10 }) from rfl, exec_eq]
  simp only [after, cmdEffect, Cfe.obuf, Option.some.injEq]
  refine (read_emit _ _ _ (by decide) _).trans ?_
  decide +kernel
/-- A legal state with a whole `OBUF`, and a step from it. -/
theorem witness_StepKeepsTheStateLegal :
    State.reset.cfe.Legal ∧ step State.reset = .next State.reset := ⟨by decide, rfl⟩
theorem witness_ObufAlwaysHoldsAWholeFrame :
    State.reset.cfe.ObufWhole ∧ step State.reset = .next State.reset := ⟨.inl (fun _ _ => rfl), rfl⟩
/-- A script that keeps the busy rule, from an idle and from a busy CFE, and one that does not (P7). -/
theorem witness_BusyRuleExcludesHazards :
    keepsBusyRule (machine Cfe.reset (runOp .crccalc ++ [rd32 0x0C])).cfe.busy
      (machine Cfe.reset (runOp .crccalc ++ [rd32 0x0C])).script = true ∧
    keepsBusyRule (busy [rd32 0x04, .wait, wr32 0x08 1] 7).cfe.busy (busy [rd32 0x04, .wait, wr32 0x08 1] 7).script = true ∧
    keepsBusyRule false (cmdOp .crccalc ++ [rd32 0x0C]) = false := by decide
/-- A run that comes to rest: a pending command, a `wait`, a write and a new command. -/
theorem witness_EveryLegalRunComesToRest :
    keepsBusyRule (busy ([.wait, wr32 0x08 1] ++ runOp .crccalc) 7).cfe.busy
      (busy ([.wait, wr32 0x08 1] ++ runOp .crccalc) 7).script = true := by decide
theorem witness_WaitEndsAtCompletion :
    (busy [.wait] 2).cfe.pend = some 0x00 ∧ (busy [.wait] 2).script = .wait :: [] := by decide
/-- Two runs of one script with different latencies that both come to rest. -/
theorem witness_TimingDoesNotMatter :
    (busy [.wait] 0).SameButTiming (busy [.wait] 2) ∧
    keepsBusyRule (busy [.wait] 0).cfe.busy (busy [.wait] 0).script = true ∧
    ∃ s' t', core.run 2 (busy [.wait] 0) = .next s' ∧ s'.Quiet ∧ core.run 4 (busy [.wait] 2) = .next t' ∧ t'.Quiet := by
  refine ⟨by decide, by decide, machine { Cfe.reset with done := true } |>.reply (.data 0x02), _, rfl, ⟨rfl, rfl⟩,
    rfl, ⟨rfl, rfl⟩⟩
theorem witness_IdleCfeStaysAsItIs : State.reset.cfe.pend = none ∧ State.reset.script = [] := by decide

end Sys2Proof.Tests
end

section
/-! The parameters of an instance (R9): their constraints hold whatever value each one has. -/

namespace Sys2Proof

theorem Config.pBase_mod_256 : Config.pBase % 256 = 0 :=
  Nat.mul_mod_right 256 Config.baseBlock

@[simp] theorem Config.rspCmdOffOf_none : Config.rspCmdOffOf none = .k5 := rfl

@[simp] theorem Config.rspCmdOffOf_some (k : RspCmdOff) : Config.rspCmdOffOf (some k) = k := rfl

namespace Machine

@[simp] theorem rspOffset_k3 : rspOffset .k3 = 3 := rfl
@[simp] theorem rspOffset_k4 : rspOffset .k4 = 4 := rfl
@[simp] theorem rspOffset_k5 : rspOffset .k5 = 5 := rfl

/-- `K` where the platform sets no `P_RSP_CMD_OFF` (R9, D17). -/
theorem rspOffset_default : rspOffset (Config.rspCmdOffOf none) = 5 := by
  rw [Config.rspCmdOffOf_none, rspOffset_k5]

/-- Settles O55: `P_BASE` is 256 times an open number and each payload length an open `Fin 54`, so the
constraints hold whatever was set (R9, R136, R137); so does the choice of `P_RSP_CMD_OFF` (R171). -/
theorem parametersMeetTheirConstraints : Obligations.ParametersMeetTheirConstraints :=
  ⟨Config.pBase_mod_256, length_iapPayload, length_endPayload,
    rspOffset_k3, rspOffset_k4, rspOffset_k5,
    rspOffset_default, Config.rspCmdOffOf_some, rfl⟩

end Machine
end Sys2Proof
end

section
/-! What a completion, a taken write and a step can do to CFE, each said once. -/

namespace Sys2Proof.Machine

/-! ## Completions -/

/-- `Completes w c d`: the completion of the word `w` may take CFE from `c` to `d`. The six ways a
completion ends, with the words that may end that way (R192, R193, R201). -/
inductive Completes (w : Word) (c : Cfe) : Cfe → Prop where
  /-- Success of a command without a body (R194). -/
  | success (hw : w ≠ 0x30) : Completes w c c.succeed
  /-- A failure outside `PARSE`, which alone raises `SHORT_RESPONSE` (R203 to R205). -/
  | failure (e : CmdErr) (he : e ≠ .shortResponse) (hw : w ≠ 0x30) : Completes w c (c.raise e)
  /-- A checksum command wrote `CRC` (R115 to R117). -/
  | checksum (r : Half) (hw : w = 0x01 ∨ w = 0x02 ∨ w = 0x03) :
      Completes w c (Cfe.succeed { c with crc := r })
  /-- A build command wrote a whole frame (R133). -/
  | build (m : Byte) (p : List Byte) (hp : p.length ≤ 53)
      (hw : w.toNat ∈ [0x10, 0x11, 0x12, 0x20, 0x21, 0x22, 0x23]) : Completes w c (c.emit m p)
  /-- `PARSE` succeeded, with or without a valid response (R173). -/
  | parsed (r : Option Response) (hw : w = 0x30) : Completes w c (c.setResponse r).succeed
  /-- `PARSE` failed and cleared the response registers (R173). -/
  | unparsed (e : CmdErr) (hw : w = 0x30) : Completes w c ((c.setResponse none).raise e)

/-- A build from `IBUF` with a limit of at most 53 bytes writes a whole frame or fails. -/
theorem build_completes {w : Word} {max : Nat} (m : Byte) (c : Cfe) (hmax : max ≤ 53)
    (hw : w.toNat ∈ [0x10, 0x11, 0x12, 0x20, 0x21, 0x22, 0x23]) : Completes w c (c.build max m) := by
  rcases build_cases max m c with ⟨-, h⟩ | ⟨hlen, h⟩ <;> rw [h]
  · exact .failure _ (by decide) (by rintro rfl; exact absurd hw (by decide))
  · exact .build m _ (by rw [length_input]; omega) hw

theorem parse_completes (k : RspCmdOff) (c : Cfe) : Completes 0x30 c (c.parse k) := by
  rcases parse_cases k c with ⟨-, h⟩ | ⟨-, h⟩ | ⟨-, -, ⟨-, h⟩ | ⟨-, h⟩⟩ <;> rw [h]
  · exact .unparsed _ rfl
  · exact .unparsed _ rfl
  · exact .parsed _ rfl
  · exact .parsed _ rfl

theorem cmdEffect_completes (i : Instr) (c : Cfe) : Completes (encode i) c (cmdEffect i c) := by
  cases i with
  | nop => exact .success (by decide)
  | crcinit => exact .checksum _ (by decide)
  | crcupd =>
    rcases crcupd_cases c with ⟨-, h⟩ | ⟨-, h⟩ <;> rw [cmdEffect, h]
    · exact .failure _ (by decide) (by decide)
    · exact .checksum _ (by decide)
  | crccalc =>
    rcases crccalc_cases c with ⟨-, h⟩ | ⟨-, h⟩ <;> rw [cmdEffect, h]
    · exact .failure _ (by decide) (by decide)
    · exact .checksum _ (by decide)
  | bldupg => exact .build _ _ (by decide) (by decide)
  | bldiap => exact .build _ _ length_iapPayload (by decide)
  | bldend => exact .build _ _ length_endPayload (by decide)
  | bldfw => exact build_completes _ _ (by decide) (by decide)
  | bldver => exact build_completes _ _ (by decide) (by decide)
  | bldbsz => exact .build _ _ (by simp) (by decide)
  | bldbdat => exact build_completes _ _ (by decide) (by decide)
  | parse => exact parse_completes _ _

/-- A word with `RSV` = 0 is its opcode (R91). -/
theorem toNat_opField_of_rsvField {w : Word} (h : rsvField w = 0) : (opField w).toNat = w.toNat := by
  have hr := congrArg BitVec.toNat h
  simp only [rsvField, opField, BitVec.extractLsb'_toNat, Nat.shiftRight_eq_div_pow,
    BitVec.toNat_zero, BitVec.ofNat_eq_ofNat] at hr ⊢
  omega

/-- A word decodes to a command only if it is that command's word (R91, R93). -/
theorem eq_encode_of_decodeWord {w : Word} {i : Instr} (h : decodeWord w = .command i) :
    w = encode i := by
  unfold decodeWord at h
  split at h
  · rename_i hr
    rw [toNat_opField_of_rsvField hr] at h
    apply BitVec.eq_of_toNat_eq
    unfold decodeOp at h
    split at h <;> cases h <;> assumption
  · cases h

theorem ne_parse_of_illegal {w : Word} {why : IllegalReason} (h : decodeWord w = .illegal why) :
    w ≠ 0x30 := by
  rintro rfl
  have hd : decodeWord 0x30 = .command .parse := rfl
  rw [hd] at h
  cases h

theorem wordEffect_completes (w : Word) (c : Cfe) : Completes w c (wordEffect w c) := by
  unfold wordEffect
  split
  · rename_i i hi
    rw [eq_encode_of_decodeWord hi]
    exact cmdEffect_completes i c
  · rename_i hi
    exact .failure _ (by decide) (ne_parse_of_illegal hi)

/-! ### The codes of R202 -/

theorem CmdErr.code_ne_zero (e : CmdErr) : e.code ≠ 0 := by cases e <;> decide

theorem CmdErr.toNat_code_le (e : CmdErr) : e.code.toNat ≤ 3 := by cases e <;> decide

theorem CmdErr.eq_shortResponse_of_code {e : CmdErr} (h : e.code = 3) : e = .shortResponse := by
  revert h
  cases e <;> decide

/-! ### What a completion changes -/

section
variable {w : Word} {c d : Cfe}

/-- Every completion ends with nothing pending and `DONE` set (R192). -/
theorem Completes.done (h : Completes w c d) : d.pend = none ∧ d.done = true := by
  cases h <;> exact ⟨rfl, rfl⟩

/-- A completion sets `ERR` with a nonzero code, or clears both (R193, R201). -/
theorem Completes.err_iff (h : Completes w c d) : d.err = true ↔ d.errcode ≠ 0 := by
  have hsucceed (x : Cfe) : x.succeed.err = true ↔ x.succeed.errcode ≠ 0 := by simp
  have hraise (e : CmdErr) (x : Cfe) : (x.raise e).err = true ↔ (x.raise e).errcode ≠ 0 :=
    iff_of_true rfl e.code_ne_zero
  cases h with
  | success => exact hsucceed _
  | failure => exact hraise _ _
  | checksum => exact hsucceed _
  | build => exact hsucceed _
  | parsed => exact hsucceed _
  | unparsed => exact hraise _ _

/-- Only a build command changes memory, and it leaves a whole frame and no error (R133). -/
theorem Completes.mem_eq_or_build (h : Completes w c d) :
    d.mem = c.mem ∨ (w.toNat ∈ [0x10, 0x11, 0x12, 0x20, 0x21, 0x22, 0x23] ∧
      ∃ m p, p.length ≤ 53 ∧ d = c.emit m p) := by
  cases h with
  | success => exact .inl rfl
  | failure => exact .inl rfl
  | checksum => exact .inl rfl
  | build m p hp hw => exact .inr ⟨hw, m, p, hp, rfl⟩
  | parsed r => cases r <;> exact .inl rfl
  | unparsed => exact .inl rfl

/-- No completion changes `LEN`, `BSIZE` or a byte of `IBUF` (R30, R32, R35). -/
theorem Completes.inputs (h : Completes w c d) :
    d.len = c.len ∧ d.bsize = c.bsize ∧ ∀ j, j < 64 → d.ibuf j = c.ibuf j := by
  have hibuf (j : Nat) (hj : j < 64) : d.ibuf j = c.ibuf j := by
    simp only [Cfe.ibuf, Lit.ibufBase]
    rcases h.mem_eq_or_build with hm | ⟨-, m, p, hp, rfl⟩
    · rw [hm]
    · rw [read_emit m p c hp, if_neg (by omega)]
  have hregs : d.len = c.len ∧ d.bsize = c.bsize := by
    cases h with
    | parsed r => cases r <;> exact ⟨rfl, rfl⟩
    | success | failure | checksum | build | unparsed => exact ⟨rfl, rfl⟩
  exact ⟨hregs.1, hregs.2, hibuf⟩

/-- Only `PARSE` changes the response registers (R174). -/
theorem Completes.response_eq_of_ne (h : Completes w c d) (hw : w ≠ 0x30) :
    d.rvalid = c.rvalid ∧ d.rspcmd = c.rspcmd ∧ d.rsppn = c.rsppn := by
  cases h with
  | parsed _ hp => exact absurd hp hw
  | unparsed _ hp => exact absurd hp hw
  | success | failure | checksum | build => exact ⟨rfl, rfl, rfl⟩

/-- A failing `PARSE` leaves `RVALID` at 0 (R173). -/
theorem Completes.rvalid_of_parse_err (h : Completes 0x30 c d) (he : d.err = true) :
    d.rvalid = false := by
  cases h with
  | success hw => exact absurd rfl hw
  | failure _ _ hw => exact absurd rfl hw
  | checksum | build | parsed => cases he
  | unparsed => rfl

/-- Only the checksum commands change `CRC` (R118). -/
theorem Completes.crc_eq_or_checksum (h : Completes w c d) :
    d.crc = c.crc ∨ w = 0x01 ∨ w = 0x02 ∨ w = 0x03 := by
  cases h with
  | checksum _ hw => exact .inr hw
  | parsed r => cases r <;> exact .inl rfl
  | success | failure | build | unparsed => exact .inl rfl

end

/-! ## Writes -/

section
variable {off : Offset} {n : Width} {v : Word} {c d : Cfe}

/-- No write reaches `CRC` or the response registers (R31, R33, R34). -/
theorem busWrite_keeps_results (h : c.busWrite off n v = some d) :
    d.crc = c.crc ∧ d.rvalid = c.rvalid ∧ d.rspcmd = c.rspcmd ∧ d.rsppn = c.rsppn := by
  rcases busWrite_cases h with ⟨-, rfl⟩ | ⟨-, rfl⟩ | ⟨-, rfl⟩ | ⟨-, -, rfl⟩ <;> exact ⟨rfl, rfl, rfl, rfl⟩

/-- No write reaches `OBUF` (R36). -/
theorem busWrite_keeps_obuf (h : c.busWrite off n v = some d) (j : Nat) : d.obuf j = c.obuf j := by
  rcases busWrite_cases h with ⟨-, rfl⟩ | ⟨-, rfl⟩ | ⟨-, rfl⟩ | ⟨hr, ha, rfl⟩
  · rfl
  · rfl
  · rfl
  · have hend := (ibuf_run off n ha hr).2
    simp only [Cfe.obuf, Lit.obufBase, Memory.read_writeList, length_lanes]
    rw [if_neg (by omega)]

theorem toNat_lt_of_regionOf_cmd (h : regionOf off = .cmd) : off.toNat < 0x04 := by
  revert off
  decide +kernel

/-- A write that is taken either issues a command, being 32 bits wide and at `CMD`, or leaves
`PEND` and the `STATUS` bits alone (R26, R27, R64). -/
theorem busWrite_issues_or_keeps_status (h : c.busWrite off n v = some d) :
    (off = 0x00 ∧ n = .w4 ∧ d = c.issue v) ∨
      (d.pend = c.pend ∧ d.done = c.done ∧ d.err = c.err ∧ d.errcode = c.errcode) := by
  rcases busWrite_cases h with ⟨hr, rfl⟩ | ⟨-, rfl⟩ | ⟨-, rfl⟩ | ⟨-, -, rfl⟩
  · have hlt := toNat_lt_of_regionOf_cmd hr
    have hal : allowed off n .write = true := by rw [← busWrite_isSome off n v c, h]; rfl
    rcases (allowed_write_iff off n).mp hal with ⟨-, ⟨rfl, rfl | rfl | rfl⟩ | ⟨hge, -⟩⟩
    · exact .inl ⟨rfl, rfl, rfl⟩
    · exact absurd hlt (by decide)
    · exact absurd hlt (by decide)
    · omega
  · exact .inr ⟨rfl, rfl, rfl, rfl⟩
  · exact .inr ⟨rfl, rfl, rfl, rfl⟩
  · exact .inr ⟨rfl, rfl, rfl, rfl⟩

end

/-! ## Steps -/

/-- `CfeStep s t`: the four ways a step from `s` to `t` can treat CFE (R72). -/
inductive CfeStep (s t : State) : Prop where
  /-- The engine agent completes the pending word (R192). -/
  | completion (w : Word) (hp : s.cfe.pend = some w) (hc : Completes w s.cfe t.cfe)
  /-- CFE is left as it is: a read, an error response, a turn of `wait`, or nothing to do. -/
  | idle (hc : t.cfe = s.cfe)
  /-- A host write is taken and acknowledged (R68). -/
  | write (off : Offset) (n : Width) (v : Word) (rest : List HostOp) (hp : s.cfe.pend = none)
      (hs : s.script = .write off n v :: rest) (ht : t.script = rest)
      (hr : t.replies = .ack :: s.replies) (hw : s.cfe.busWrite off n v = some t.cfe)
  /-- The reset input is asserted (R230). -/
  | reset (rest : List HostOp) (hs : s.script = .reset :: rest) (ht : t.script = rest)
      (hc : t.cfe = Cfe.reset)

theorem step_cfeStep {s t : State} (h : step s = .next t) : CfeStep s t := by
  rcases step_cases s with ⟨w, hp, -, hs⟩ | ⟨-, hs⟩
  · rw [hs] at h
    cases h
    exact .completion w hp (wordEffect_completes w s.cfe)
  · rw [hs] at h
    rcases hostStep_cases h with ⟨-, rfl⟩ | ⟨off, n, rest, r, -, -, rfl⟩ | ⟨off, n, v, rest, -, -, -, rfl⟩ |
      ⟨off, n, v, rest, c, hop, hp, hw, rfl, ht, hr⟩ | ⟨rest, -, rfl⟩ | ⟨rest, hop, rfl⟩
    · exact .idle rfl
    · exact .idle rfl
    · exact .idle rfl
    · exact .write off n v rest hp hop ht hr hw
    · exact .idle rfl
    · exact .reset rest hop rfl rfl

end Sys2Proof.Machine
end

section
/-! The invariants of CFE: legality and whole frames, kept by every step (R42, R43, R133). -/

namespace Sys2Proof.Machine

/-! ## Legality -/

/-- The part of `Cfe.Legal` that does not speak of `PEND` and the `STATUS` bits: memory in its
canonical form, and response registers that read 0 without a valid response (R33, R34). -/
def Cfe.LegalStore (c : Cfe) : Prop :=
  c.mem.wf = true ∧ (c.rvalid = false → c.rspcmd = 0 ∧ c.rsppn = 0)

theorem Cfe.Legal.store {c : Cfe} (h : c.Legal) : c.LegalStore := by
  obtain ⟨hmem, -, -, -, -, hrsp, -⟩ := h
  exact ⟨hmem, hrsp⟩

theorem reset_legal : Cfe.reset.Legal := by decide

namespace Cfe.LegalStore
variable {c : Cfe}

theorem succeed (h : c.LegalStore) : c.succeed.Legal := by
  obtain ⟨hmem, hrsp⟩ := h
  exact ⟨hmem, by simp, by simp, nofun, by simp, hrsp, by simp⟩

theorem raise (h : c.LegalStore) {e : CmdErr} (he : e = .shortResponse → c.rvalid = false) :
    (c.raise e).Legal := by
  obtain ⟨hmem, hrsp⟩ := h
  exact ⟨hmem, e.toNat_code_le, iff_of_true rfl e.code_ne_zero, fun _ => rfl, by simp, hrsp,
    fun hcode => he (CmdErr.eq_shortResponse_of_code hcode)⟩

theorem issue (h : c.LegalStore) (w : Word) : (c.issue w).Legal := by
  obtain ⟨hmem, hrsp⟩ := h
  exact ⟨hmem, by simp, by simp, nofun, by simp, hrsp, by simp⟩

theorem setResponse (h : c.LegalStore) (r : Option Response) : (c.setResponse r).LegalStore := by
  cases r with
  | none => exact ⟨h.1, fun _ => ⟨rfl, rfl⟩⟩
  | some _ => exact ⟨h.1, nofun⟩

end Cfe.LegalStore

theorem Completes.legal {w : Word} {c d : Cfe} (h : Completes w c d) (hc : c.LegalStore) : d.Legal := by
  cases h with
  | success => exact hc.succeed
  | failure e he => exact hc.raise fun h => absurd h he
  | checksum r => exact Cfe.LegalStore.succeed (c := { c with crc := r }) hc
  | build m p hp =>
    have hmem : { c with mem := c.mem.writeList Lit.obufBase (frame m p) }.LegalStore :=
      ⟨wf_emit m p c hp hc.1, hc.2⟩
    exact hmem.succeed
  | parsed r => exact (hc.setResponse r).succeed
  | unparsed e => exact (hc.setResponse none).raise fun _ => rfl

theorem busWrite_legal {off : Offset} {n : Width} {v : Word} {c d : Cfe}
    (h : c.busWrite off n v = some d) (hc : c.Legal) : d.Legal := by
  rcases busWrite_cases h with ⟨-, rfl⟩ | ⟨-, rfl⟩ | ⟨-, rfl⟩ | ⟨hr, ha, rfl⟩
  · exact hc.store.issue v
  · exact hc
  · exact hc
  · obtain ⟨hlo, hhi⟩ := ibuf_run off n ha hr
    exact ⟨Memory.wf_writeList _ _ _ hlo (by rw [length_lanes]; omega) hc.1, hc.2⟩

/-- Settles O48: a completion and an issue set `STATUS` afresh from a legal store, any other write
leaves `STATUS` alone and memory canonical, and the reset values are legal. -/
theorem stepKeepsTheStateLegal : Obligations.StepKeepsTheStateLegal := by
  intro s t hs hstep
  cases step_cfeStep hstep with
  | completion w _ hc => exact hc.legal hs.store
  | idle hc => rwa [hc]
  | write off n v rest _ _ _ _ hw => exact busWrite_legal hw hs
  | reset rest _ _ hc => rw [hc]; exact reset_legal

/-! ## Whole frames -/

theorem Cfe.ObufWhole.congr {c d : Cfe} (h : c.ObufWhole) (he : ∀ j, d.obuf j = c.obuf j) :
    d.ObufWhole := by
  simpa only [Cfe.ObufWhole, he] using h

theorem reset_obufWhole : Cfe.reset.ObufWhole := .inl fun _ _ => rfl

theorem obuf_emit (m : Byte) (p : List Byte) (c : Cfe) (hp : p.length ≤ 53) {j : Nat} (hj : j < 64) :
    (c.emit m p).obuf j = byteAt (frame m p) j := by
  simp only [Cfe.obuf, Lit.obufBase]
  rw [read_emit m p c hp, if_pos (by omega), Nat.add_sub_cancel_left]

theorem Completes.obufWhole {w : Word} {c d : Cfe} (h : Completes w c d) (hc : c.ObufWhole) :
    d.ObufWhole := by
  rcases h.mem_eq_or_build with hm | ⟨-, m, p, hp, rfl⟩
  · exact hc.congr fun j => by rw [Cfe.obuf, Cfe.obuf, hm]
  · exact .inr ⟨m, p, hp, fun j hj => obuf_emit m p c hp hj⟩

/-- Settles O49: a completion leaves memory alone or writes a whole frame at once, no write reaches
`OBUF`, and reset clears it. -/
theorem obufAlwaysHoldsAWholeFrame : Obligations.ObufAlwaysHoldsAWholeFrame := by
  intro s t hs hstep
  cases step_cfeStep hstep with
  | completion w _ hc => exact hc.obufWhole hs
  | idle hc => rwa [hc]
  | write off n v rest _ _ _ _ hw => exact hs.congr (busWrite_keeps_obuf hw)
  | reset rest _ _ hc => rw [hc]; exact reset_obufWhole

/-- Settles O47. -/
theorem resetStateIsLegal : Obligations.ResetStateIsLegal := ⟨reset_legal, reset_obufWhole⟩

/-- Settles O1: each field by its definition; memory lists nothing, so both buffers read 0x00. -/
theorem resetLeavesTheStatedValues : Obligations.ResetLeavesTheStatedValues :=
  ⟨rfl, rfl, rfl, rfl, rfl, rfl, rfl, rfl, rfl, rfl, fun _ _ => rfl, fun _ _ => rfl⟩

/-! ## Who changes what -/

/-- Settles O42: of the four ways of a step, an idle one and a write that does not issue leave all
four fields alone. -/
theorem onlyIssueCompletionAndResetWriteStatus : Obligations.OnlyIssueCompletionAndResetWriteStatus := by
  intro s t hstep hchange
  cases step_cfeStep hstep with
  | completion w hp hc => exact .inl ⟨by simp [hp], hc.done⟩
  | idle hc => exact absurd (by simp [hc]) hchange
  | write off n v rest hp hs _ _ hw =>
    rcases busWrite_issues_or_keeps_status hw with ⟨rfl, rfl, hd⟩ | hkeep
    · exact .inr (.inl ⟨hp, v, rest, hs, by rw [hd, Cfe.issue_pend]⟩)
    · exact absurd hkeep hchange
  | reset rest hs ht hc => exact .inr (.inr ⟨rest, hs, ht, hc⟩)

/-- Settles O43: a completion that changes the response registers is that of `PARSE`, and no write
reaches them. -/
theorem onlyParseOrResetChangesTheResponse : Obligations.OnlyParseOrResetChangesTheResponse := by
  intro s t hstep hchange
  cases step_cfeStep hstep with
  | completion w hp hc =>
    have hw : w = 0x30 := by_contra fun hne => hchange (hc.response_eq_of_ne hne)
    exact .inl ⟨by rw [hp, hw], hc.done⟩
  | idle hc => exact absurd (by simp [hc]) hchange
  | write off n v rest _ _ _ _ hw => exact absurd (busWrite_keeps_results hw).2 hchange
  | reset rest hs ht hc => exact .inr ⟨rest, hs, ht, hc⟩

/-- Settles O44: a completion that changes `CRC` is that of a checksum command, and no write reaches
it. -/
theorem onlyChecksumCommandsOrResetChangeCrc : Obligations.OnlyChecksumCommandsOrResetChangeCrc := by
  intro s t hstep hchange
  cases step_cfeStep hstep with
  | completion w hp hc =>
    have hw := hc.crc_eq_or_checksum.resolve_left hchange
    exact .inl ⟨by simpa [hp] using hw, hc.done⟩
  | idle hc => exact absurd (by rw [hc]) hchange
  | write off n v rest _ _ _ _ hw => exact absurd (busWrite_keeps_results hw).1 hchange
  | reset rest hs ht hc => exact .inr ⟨rest, hs, ht, hc⟩

/-- Settles O45: no completion changes the inputs, and a write that does is one that is taken. -/
theorem onlyTheHostChangesTheInputs : Obligations.OnlyTheHostChangesTheInputs := by
  intro s t hstep hchange
  cases step_cfeStep hstep with
  | completion w _ hc => exact absurd hc.inputs hchange
  | idle hc => exact absurd (by simp [hc]) hchange
  | write off n v rest hp hs ht hr _ => exact .inl ⟨hp, off, n, v, rest, hs, ht, hr⟩
  | reset rest hs ht hc => exact .inr ⟨rest, hs, ht, hc⟩

/-- Settles O46: a completion that changes memory is a successful build, and no write reaches
`OBUF`. -/
theorem onlyBuildsOrResetChangeObuf : Obligations.OnlyBuildsOrResetChangeObuf := by
  intro s t j hstep _ hchange
  cases step_cfeStep hstep with
  | completion w hp hc =>
    rcases hc.mem_eq_or_build with hm | ⟨hw, m, p, -, hd⟩
    · exact absurd (by rw [Cfe.obuf, Cfe.obuf, hm]) hchange
    · exact .inl ⟨w, hp, hw, hc.done.1, hc.done.2, by rw [hd]; rfl⟩
  | idle hc => exact absurd (by rw [hc]) hchange
  | write off n v rest _ _ _ _ hw => exact absurd (busWrite_keeps_obuf hw j) hchange
  | reset rest hs ht hc => exact .inr ⟨rest, hs, ht, hc⟩

end Sys2Proof.Machine
end

section
/-! The commands as functions of CFE: they end, they keep their inputs, and they ignore what lies past
`LEN` (R43, R92, R192). -/

namespace Sys2Proof.Machine

theorem eq_parse_of_encode {i : Instr} (h : encode i = 0x30) : i = .parse := by
  revert h
  cases i <;> decide

/-- Settles O9: the completion of a command's own word, by how it ends. -/
theorem everyCommandCompletes : Obligations.EveryCommandCompletes := by
  intro i s
  have hc := cmdEffect_completes i s.cfe
  refine ⟨cmdEffect i s.cfe, exec_eq i s, hc.done.1, hc.done.2, hc.err_iff, fun hi => ?_, ?_⟩
  · exact (hc.response_eq_of_ne fun hw => hi (eq_parse_of_encode hw)).1
  · rintro rfl herr
    exact hc.rvalid_of_parse_err herr

/-- Settles O10: the completion of a command's own word keeps the inputs. -/
theorem noCommandWritesItsInputs : Obligations.NoCommandWritesItsInputs := by
  intro i s t h
  rw [exec_eq] at h
  cases h
  exact (cmdEffect_completes i s.cfe).inputs

/-! ## Agreement but for the input past `LEN` -/

/-- `c` and `d` agree but for the bytes of `IBUF` from index `n` on. -/
def Cfe.AgreeBut (n : Nat) (c d : Cfe) : Prop :=
  d = { c with mem := d.mem } ∧ ∀ a, ¬(0x40 + n ≤ a ∧ a < 0x80) → c.mem.read a = d.mem.read a

namespace Cfe.AgreeBut
variable {n : Nat} {c d : Cfe}

theorem len_eq (h : c.AgreeBut n d) : d.len = c.len := by rw [h.1]

theorem count_eq (h : c.AgreeBut n d) : d.count = c.count := congrArg BitVec.toNat h.len_eq

theorem crc_eq (h : c.AgreeBut n d) : d.crc = c.crc := by rw [h.1]

theorem bsizeBytes_eq (h : c.AgreeBut n d) : d.bsizeBytes = c.bsizeBytes := by rw [h.1]; rfl

/-- The input is below the bytes that may differ. -/
theorem input_eq (h : c.AgreeBut c.len.toNat d) : d.input = c.input :=
  (input_congr c d h.len_eq.symm fun i hi => h.2 _ (by simp only [Lit.ibufBase]; omega)).symm

/-- An operation that neither reads nor writes memory keeps the agreement. -/
theorem map (h : c.AgreeBut n d) (f : Cfe → Cfe)
    (hf : ∀ x m, f { x with mem := m } = { f x with mem := m }) : (f c).AgreeBut n (f d) := by
  have hmem (x : Cfe) : (f x).mem = x.mem := by simpa using congrArg Cfe.mem (hf x x.mem)
  refine ⟨?_, fun a ha => by rw [hmem, hmem, h.2 a ha]⟩
  calc f d = f { c with mem := d.mem } := by rw [← h.1]
    _ = { f c with mem := (f d).mem } := by rw [hf, hmem]

theorem succeed (h : c.AgreeBut n d) : c.succeed.AgreeBut n d.succeed :=
  h.map _ fun _ _ => rfl

theorem raise (h : c.AgreeBut n d) (e : CmdErr) : (c.raise e).AgreeBut n (d.raise e) :=
  h.map _ fun _ _ => rfl

theorem setCrc (h : c.AgreeBut n d) (r : Half) :
    Cfe.AgreeBut n { c with crc := r } { d with crc := r } :=
  h.map (fun x => { x with crc := r }) fun _ _ => rfl

theorem setResponse (h : c.AgreeBut n d) (r : Option Response) :
    (c.setResponse r).AgreeBut n (d.setResponse r) :=
  h.map _ fun _ _ => by cases r <;> rfl

theorem writeList (h : c.AgreeBut n d) (a : Nat) (bs : List Byte) :
    Cfe.AgreeBut n { c with mem := c.mem.writeList a bs } { d with mem := d.mem.writeList a bs } := by
  refine ⟨congrArg (fun x : Cfe => { x with mem := d.mem.writeList a bs }) h.1, fun x hx => ?_⟩
  rw [Memory.read_writeList, Memory.read_writeList, h.2 x hx]

theorem emit (h : c.AgreeBut n d) (m : Byte) (p : List Byte) : (c.emit m p).AgreeBut n (d.emit m p) :=
  (h.writeList _ _).succeed

theorem crcupd (h : c.AgreeBut c.len.toNat d) : c.crcupd.AgreeBut c.len.toNat d.crcupd := by
  unfold Cfe.crcupd
  rw [h.count_eq, h.input_eq, h.crc_eq]
  split
  · exact h.raise _
  · exact (h.setCrc _).succeed

theorem crccalc (h : c.AgreeBut c.len.toNat d) : c.crccalc.AgreeBut c.len.toNat d.crccalc := by
  unfold Cfe.crccalc
  rw [h.count_eq, h.input_eq]
  split
  · exact h.raise _
  · exact (h.setCrc _).succeed

theorem build (h : c.AgreeBut c.len.toNat d) (max : Nat) (m : Byte) :
    (c.build max m).AgreeBut c.len.toNat (d.build max m) := by
  unfold Cfe.build
  rw [h.count_eq, h.input_eq]
  split
  · exact h.raise _
  · exact h.emit _ _

theorem parse (h : c.AgreeBut c.len.toNat d) (k : RspCmdOff) :
    (c.parse k).AgreeBut c.len.toNat (d.parse k) := by
  unfold Cfe.parse
  rw [h.count_eq, h.input_eq]
  split
  · exact (h.setResponse _).raise _
  · split
    · exact (h.setResponse _).raise _
    · exact (h.setResponse _).succeed

/-- Every command keeps the agreement: its operands are `LEN`, the input below `LEN`, `CRC`, `BSIZE`
and the configured contents (R92). -/
theorem cmdEffect (h : c.AgreeBut c.len.toNat d) (i : Instr) :
    (cmdEffect i c).AgreeBut c.len.toNat (cmdEffect i d) := by
  cases i with
  | nop => exact h.succeed
  | crcinit => exact (h.setCrc _).succeed
  | crcupd => exact h.crcupd
  | crccalc => exact h.crccalc
  | bldupg | bldiap | bldend => exact h.emit _ _
  | bldfw | bldver | bldbdat => exact h.build _ _
  | bldbsz =>
    simp only [Machine.cmdEffect, h.bsizeBytes_eq]
    exact h.emit _ _
  | parse => exact h.parse _

end Cfe.AgreeBut

/-- Settles O30: the two states agree but for the input past `LEN`, and every command keeps that. -/
theorem commandsIgnoreInputPastLen : Obligations.CommandsIgnoreInputPastLen := by
  intro i s m hm
  have h : s.cfe.AgreeBut s.cfe.len.toNat { s.cfe with mem := m } := ⟨rfl, fun a ha => (hm a ha).symm⟩
  obtain ⟨hfields, hmem⟩ := h.cmdEffect i
  exact ⟨cmdEffect i s.cfe, cmdEffect i { s.cfe with mem := m }, exec_eq i s, exec_eq i _, hfields, hmem⟩

end Sys2Proof.Machine
end

section
/-! The bus of an idle CFE: the value of `STATUS`, and what each access is answered with (R24, R62 to
R68). -/

namespace Sys2Proof.Machine

/-! ## `STATUS` -/

/-- The flags and the code lie in bits of their own (R24). -/
theorem toNat_statusBits (busy done err rvalid : Bool) (code : BitVec 4) :
    (flagBit busy ||| flagBit done <<< 1 ||| flagBit err <<< 2 ||| flagBit rvalid <<< 3 |||
        code.setWidth 32 <<< 8).toNat =
      (if busy then 1 else 0) + (if done then 2 else 0) + (if err then 4 else 0) +
        (if rvalid then 8 else 0) + 256 * code.toNat := by
  revert busy done err rvalid code
  decide +kernel

/-- Settles O32: `BUSY` is 1 exactly while a command is pending, and the bits do not overlap. -/
theorem statusValue : Obligations.StatusValue := by
  intro c
  rw [Cfe.status, toNat_statusBits]
  by_cases hp : c.pend = none <;> simp [hp]

/-! ## Reads -/

section
variable {s : State} {off : Offset} {n : Width} {rest : List HostOp}

theorem step_read_of_idle (hp : s.cfe.pend = none) (hs : s.script = .read off n :: rest) :
    step s = hostRead off n { s with script := rest } := by
  rw [step_of_idle hp, hostStep, hs]

/-- An allowed read of an idle CFE is answered with its value (R62, R67). -/
theorem step_read_data {v : Word} (hp : s.cfe.pend = none) (hs : s.script = .read off n :: rest)
    (hv : s.cfe.busRead off n = some v) :
    step s = .next (({ s with script := rest }).tick.reply (.data v)) := by
  rw [step_read_of_idle hp hs]
  simp [hostRead, Cfe.busy_of_none hp, hv]

/-- A forbidden read of an idle CFE is answered with an error response (R66). -/
theorem step_read_error (hp : s.cfe.pend = none) (hs : s.script = .read off n :: rest)
    (hv : s.cfe.busRead off n = none) :
    step s = .next (({ s with script := rest }).tick.reply (.busError off n .read)) := by
  rw [step_read_of_idle hp hs]
  simp [hostRead, Cfe.busy_of_none hp, hv]

end

/-- The 32-bit value of each register, zero-extended (R22, R24, R30 to R34). -/
theorem busRead_register {off : Offset} {v : Word} {c : Cfe}
    (h : (off = 0x04 ∧ v = c.status) ∨ (off = 0x08 ∧ v = BitVec.ofNat 32 c.len.toNat) ∨
      (off = 0x0C ∧ v = BitVec.ofNat 32 c.crc.toNat) ∨ (off = 0x10 ∧ v = c.bsize) ∨
      (off = 0x14 ∧ v = BitVec.ofNat 32 c.rspcmd.toNat) ∨ (off = 0x18 ∧ v = c.rsppn)) :
    c.busRead off .w4 = some v := by
  simp only [BitVec.ofNat_toNat] at h
  rcases h with ⟨rfl, rfl⟩ | ⟨rfl, rfl⟩ | ⟨rfl, rfl⟩ | ⟨rfl, rfl⟩ | ⟨rfl, rfl⟩ | ⟨rfl, rfl⟩ <;> rfl

/-- Settles O33: a register's value is what an allowed read of it gives. -/
theorem registerReads : Obligations.RegisterReads := by
  intro s off v rest hp hs hv
  exact ⟨_, step_read_data hp hs (busRead_register hv), rfl, rfl, rfl⟩

/-- Settles O35: data exactly where the access table allows the read. -/
theorem readAccessTable : Obligations.ReadAccessTable := by
  intro s off n rest hp hs
  have hsome := busRead_isSome off n s.cfe
  rw [← allowed_read_iff, ← hsome]
  cases hv : s.cfe.busRead off n with
  | some v => exact ⟨_, step_read_data hp hs hv, rfl, rfl, fun _ => ⟨v, rfl⟩, fun h => absurd rfl h⟩
  | none => exact ⟨_, step_read_error hp hs hv, rfl, rfl, nofun, fun _ => rfl⟩

/-! ## Writes -/

section
variable {s : State} {off : Offset} {n : Width} {v : Word} {rest : List HostOp}

theorem step_write_of_idle (hp : s.cfe.pend = none) (hs : s.script = .write off n v :: rest) :
    step s = hostWrite off n v { s with script := rest } := by
  rw [step_of_idle hp, hostStep, hs]

/-- An allowed write of an idle CFE is taken and acknowledged (R68). -/
theorem step_write_taken {c : Cfe} (hp : s.cfe.pend = none) (hs : s.script = .write off n v :: rest)
    (hw : s.cfe.busWrite off n v = some c) :
    ∃ t, step s = .next t ∧ t.cfe = c ∧ t.script = rest ∧ t.replies = .ack :: s.replies := by
  rw [step_write_of_idle hp hs]
  rcases hostWrite_cases off n v { s with script := rest } with
    ⟨hbusy, -⟩ | ⟨-, hnone, -⟩ | ⟨-, d, t, hd, ht, hcfe, hscript, hreplies⟩
  · exact absurd hp hbusy
  · exact absurd (hw.symm.trans hnone) nofun
  · cases hw.symm.trans hd
    exact ⟨t, ht, hcfe, hscript, hreplies⟩

/-- A forbidden write of an idle CFE is answered with an error response and changes nothing (R66). -/
theorem step_write_error (hp : s.cfe.pend = none) (hs : s.script = .write off n v :: rest)
    (hw : s.cfe.busWrite off n v = none) :
    step s = .next (({ s with script := rest }).tick.reply (.busError off n .write)) := by
  rw [step_write_of_idle hp hs]
  simp [hostWrite, Cfe.busy_of_none hp, hw]

end

/-- Settles O36: an acknowledgment exactly where the access table allows the write. -/
theorem writeAccessTable : Obligations.WriteAccessTable := by
  intro s off n v rest hp hs
  have hsome := busWrite_isSome off n v s.cfe
  rw [← allowed_write_iff, ← hsome]
  cases hw : s.cfe.busWrite off n v with
  | some c =>
    obtain ⟨t, ht, -, hscript, hreplies⟩ := step_write_taken hp hs hw
    exact ⟨t, ht, hscript, fun _ => hreplies, fun h => absurd rfl h⟩
  | none => exact ⟨_, step_write_error hp hs hw, rfl, nofun, fun _ => ⟨rfl, rfl⟩⟩

theorem regionOf_ibuf {off : Offset} (hlo : 0x40 ≤ off.toNat) (hhi : off.toNat < 0x80) :
    regionOf off = .ibuf := by
  revert off
  decide +kernel

/-- An aligned write in `IBUF` stores its byte lanes from its offset on (R62, R68). -/
theorem busWrite_ibuf {off : Offset} {n : Width} (v : Word) (c : Cfe) (hlo : 0x40 ≤ off.toNat)
    (hhi : off.toNat < 0x80) (hal : off.toNat % n.bytes = 0) :
    c.busWrite off n v = some { c with mem := c.mem.writeList off.toNat (lanes n.bytes v) } := by
  have hallowed : allowed off n .write = true := (allowed_write_iff off n).mpr ⟨hal, .inr ⟨hlo, hhi⟩⟩
  rw [Cfe.busWrite, if_pos hallowed, regionOf_ibuf hlo hhi]

theorem lane_eq_ofNat (v : Word) (k : Nat) : lane v k = BitVec.ofNat 8 (v.toNat / 2 ^ (8 * k)) := by
  simp [lane, BitVec.extractLsb', Nat.shiftRight_eq_div_pow]

theorem read_writeList_lanes (m : Memory) (a n x : Nat) (v : Word) :
    (m.writeList a (lanes n v)).read x =
      if a ≤ x ∧ x < a + n then BitVec.ofNat 8 (v.toNat / 2 ^ (8 * (x - a))) else m.read x := by
  rw [Memory.read_writeList, length_lanes]
  split
  · rw [byteAt_lanes n (x - a) v (by omega), lane_eq_ofNat]
  · rfl

/-- Settles O37: each kind of write, by what the bus write of it stores. -/
theorem writesStoreTheirValue : Obligations.WritesStoreTheirValue := by
  intro s v rest hp
  refine ⟨fun off n hs hlo hhi hal => ?_, fun hs => ?_, fun hs => ?_⟩
  · obtain ⟨t, ht, hcfe, hscript, -⟩ := step_write_taken hp hs (busWrite_ibuf v s.cfe hlo hhi hal)
    exact ⟨t, _, ht, hscript, hcfe, fun a => read_writeList_lanes s.cfe.mem off.toNat n.bytes a v⟩
  · have hw : s.cfe.busWrite 0x08 .w4 v = some { s.cfe with len := v.setWidth 7 } := rfl
    obtain ⟨t, ht, hcfe, hscript, -⟩ := step_write_taken hp hs hw
    have hlow : v.setWidth 7 = BitVec.ofNat 7 (v.toNat % 128) := BitVec.eq_of_toNat_eq (by simp)
    exact ⟨t, ht, hscript, by rw [hcfe, hlow]⟩
  · have hw : s.cfe.busWrite 0x10 .w4 v = some { s.cfe with bsize := v } := rfl
    obtain ⟨t, ht, hcfe, hscript, -⟩ := step_write_taken hp hs hw
    exact ⟨t, ht, hscript, hcfe⟩

end Sys2Proof.Machine
end

section
/-! Reads of an idle CFE, by their values and replies, and host addresses (R61, R62, R67). -/

namespace Sys2Proof.Machine

/-! ## Byte lanes of a read -/

/-- A byte put below at most three bytes: the two do not overlap, and the shift loses nothing (R62). -/
theorem toNat_byte_or_shift (b : Byte) {v : Word} (hv : v.toNat < 2 ^ 24) :
    (b.setWidth 32 ||| v <<< 8).toNat = b.toNat + 2 ^ 8 * v.toNat := by
  have hshift : v.toNat <<< 8 % 2 ^ 32 = 2 ^ 8 * v.toNat := by
    rw [Nat.shiftLeft_eq, Nat.mod_eq_of_lt (by omega), Nat.mul_comm]
  rw [BitVec.toNat_or, BitVec.toNat_shiftLeft, hshift, Nat.or_comm,
    BitVec.toNat_setWidth_of_le (by omega), ← Nat.two_pow_add_eq_or_of_lt b.isLt, Nat.add_comm]

/-- The value of at most four byte lanes as a number, and its bound (R62). -/
theorem toNat_ofLanes_readList (m : Memory) (a : Nat) {n : Nat} (hn : n ≤ 4) :
    (ofLanes (m.readList a n)).toNat = ∑ k ∈ Finset.range n, 2 ^ (8 * k) * (m.read (a + k)).toNat ∧
      (ofLanes (m.readList a n)).toNat < 2 ^ (8 * n) := by
  induction n generalizing a with
  | zero => exact ⟨rfl, Nat.one_pos⟩
  | succ n ih =>
    obtain ⟨hsum, hlt⟩ := ih (a + 1) (by omega)
    have hstep : (ofLanes (m.readList a (n + 1))).toNat =
        (m.read a).toNat + 2 ^ 8 * (ofLanes (m.readList (a + 1) n)).toNat :=
      toNat_byte_or_shift _ (hlt.trans_le (Nat.pow_le_pow_right (by decide) (by omega)))
    constructor
    · rw [hstep, hsum, Finset.sum_range_succ', Finset.mul_sum, Nat.add_comm]
      congr 1
      · refine Finset.sum_congr rfl fun k _ => ?_
        rw [← Nat.mul_assoc, ← Nat.pow_add, Nat.add_assoc, Nat.add_comm 1 k, Nat.mul_add_one, Nat.add_comm 8]
      · simp
    · have hbyte := (m.read a).isLt
      rw [hstep, Nat.mul_add_one, Nat.add_comm, Nat.pow_add]
      omega

theorem Width.bytes_le_four (n : Width) : n.bytes ≤ 4 := by cases n <;> decide

/-! ## Reads -/

theorem regionOf_obuf {off : Offset} (hlo : 0x80 ≤ off.toNat) (hhi : off.toNat < 0xC0) :
    regionOf off = .obuf := by
  revert off
  decide +kernel

/-- An aligned read in `IBUF` or `OBUF` takes its byte lanes from its offset on (R62, R64). -/
theorem busRead_buffer {off : Offset} {n : Width} (c : Cfe) (hlo : 0x40 ≤ off.toNat)
    (hhi : off.toNat < 0xC0) (hal : off.toNat % n.bytes = 0) :
    c.busRead off n = some (ofLanes (c.mem.readList off.toNat n.bytes)) := by
  have hallowed : allowed off n .read = true := (allowed_read_iff off n).mpr ⟨hal, .inr ⟨hlo, hhi⟩⟩
  rw [Cfe.busRead, if_pos hallowed]
  by_cases hbuf : off.toNat < 0x80
  · rw [regionOf_ibuf hlo hbuf]
  · rw [regionOf_obuf (by omega) hhi]

/-- Settles O34: the read's value is its run of byte lanes, and these are the digits of a sum. -/
theorem bufferReadsAreLittleEndian : Obligations.BufferReadsAreLittleEndian := by
  intro s off n rest hp hs hlo hhi hal
  exact ⟨_, _, step_read_data hp hs (busRead_buffer s.cfe hlo hhi hal), rfl, rfl, rfl,
    (toNat_ofLanes_readList s.cfe.mem off.toNat n.bytes_le_four).1⟩

/-- What a read of an idle CFE is answered with: its value, or an error response (R66, R67). -/
def readReply (off : Offset) (n : Width) (c : Cfe) : Reply :=
  match c.busRead off n with
  | some v => .data v
  | none => .busError off n .read

/-- A read of an idle CFE gets its reply and changes nothing of CFE (R67). -/
theorem step_read_reply {s : State} {off : Offset} {n : Width} {rest : List HostOp}
    (hp : s.cfe.pend = none) (hs : s.script = .read off n :: rest) :
    step s = .next (({ s with script := rest }).tick.reply (readReply off n s.cfe)) := by
  unfold readReply
  cases hv : s.cfe.busRead off n with
  | some v => exact step_read_data hp hs hv
  | none => exact step_read_error hp hs hv

/-- Settles O38: the reply depends on CFE alone, and the first read leaves CFE as it is. -/
theorem readsAreIdempotent : Obligations.ReadsAreIdempotent := by
  intro s off n rest hp hs
  have hfirst := step_read_reply hp hs
  have hsecond := step_read_reply
    (s := ({ s with script := .read off n :: rest }).tick.reply (readReply off n s.cfe)) hp rfl
  exact ⟨_, _, (run_succ 1 hfirst).trans (run_succ 0 hsecond), rfl, rfl, rfl⟩

/-! ## Host addresses -/

/-- A host address lies in the window at `off` exactly when it is `P_BASE + off` (R61). -/
theorem offsetOf_eq_some_iff (addr : Nat) (off : Offset) :
    offsetOf addr = some off ↔ addr = Config.pBase + off.toNat := by
  have hoff := off.isLt
  unfold offsetOf
  split
  case isTrue hin => rw [Option.some_inj, ← BitVec.toNat_inj, BitVec.toNat_ofNat]; omega
  case isFalse hout => exact ⟨nofun, fun h => absurd ⟨by omega, by omega⟩ hout⟩

/-- Settles O39: the base is 256 times an open number, and an offset is what is left of an address. -/
theorem hostAddressesDecode : Obligations.HostAddressesDecode :=
  ⟨Config.pBase_mod_256, offsetOf_eq_some_iff⟩

end Sys2Proof.Machine
end

section
/-! The `wait` loop, and the outcome of a script, which no latency changes (R98, R99, R243). -/

namespace Sys2Proof.Machine

/-! ## The `wait` loop -/

/-- One turn of `wait`: a read of `STATUS`, and on in the script once `BUSY` is 0 (R98). -/
theorem hostStep_wait {s : State} {rest : List HostOp} (hs : s.script = .wait :: rest) :
    hostStep s = .next (({ s with script := if s.cfe.busy then .wait :: rest else rest }).tick.reply
      (.data s.cfe.status)) := by
  simp only [hostStep, hs, hostWait, status_bit_zero]

/-- While the latency runs, a turn of `wait` reads `STATUS` and changes nothing of CFE. -/
theorem step_wait_busy {s : State} {w : Word} {rest : List HostOp} (hp : s.cfe.pend = some w)
    (hs : s.script = .wait :: rest) (hd : s.delay ≠ 0) :
    step s = .next (s.tick.reply (.data s.cfe.status)) := by
  rw [step_of_delay hd (by simp [hs]), hostStep_wait hs, Cfe.busy_of_some hp, if_pos rfl, ← hs]

/-- On an idle CFE a turn of `wait` ends the loop. -/
theorem step_wait_idle {s : State} {rest : List HostOp} (hp : s.cfe.pend = none)
    (hs : s.script = .wait :: rest) :
    step s = .next (({ s with script := rest }).tick.reply (.data s.cfe.status)) := by
  rw [step_of_idle hp, hostStep_wait hs, Cfe.busy_of_none hp, if_neg Bool.false_ne_true]

/-- The whole loop: `delay` reads with the command pending, the completion, and one more read. -/
theorem run_wait {s : State} {w : Word} {rest : List HostOp} (hp : s.cfe.pend = some w)
    (hs : s.script = .wait :: rest) :
    ∃ t, core.run (s.delay + 2) s = .next t ∧ t.cfe = wordEffect w s.cfe ∧ t.script = rest ∧
      t.replies = .data (wordEffect w s.cfe).status ::
        (List.replicate s.delay (.data s.cfe.status) ++ s.replies) := by
  generalize hd : s.delay = d
  induction d generalizing s with
  | zero =>
    have hdone : (wordEffect w s.cfe).pend = none := (wordEffect_done w s.cfe).1
    have hlast := step_wait_idle (s := { s with cfe := wordEffect w s.cfe }) hdone hs
    exact ⟨_, (run_succ 1 (step_of_engine hp (.inl hd))).trans (run_succ 0 hlast), rfl, rfl, rfl⟩
  | succ d ih =>
    rw [run_succ (d + 2) (step_wait_busy hp hs (by omega))]
    obtain ⟨t, hrun, hcfe, hscript, hreplies⟩ :=
      ih (s := s.tick.reply (.data s.cfe.status)) hp hs (by simp [hd])
    refine ⟨t, hrun, hcfe, hscript, ?_⟩
    rw [hreplies, State.reply_replies, List.replicate_succ', List.append_assoc]
    rfl

/-- Settles O51: the loop's run, and the completion that the engine would make at once. -/
theorem waitEndsAtCompletion : Obligations.WaitEndsAtCompletion := by
  intro s w rest hp hs
  obtain ⟨t, hrun, hcfe, hscript, hreplies⟩ := run_wait hp hs
  refine ⟨t, _, step_of_engine (s := { s with delay := 0 }) hp (.inl rfl), hrun, hcfe, ?_, hscript, hreplies⟩
  rw [hcfe]
  exact (wordEffect_done w s.cfe).1

/-! ## The outcome of a script -/

/-- CFE once the pending command, if there is one, has completed. -/
def Cfe.settle (c : Cfe) : Cfe :=
  match c.pend with
  | some w => wordEffect w c
  | none => c

theorem Cfe.settle_of_none {c : Cfe} (h : c.pend = none) : c.settle = c := by rw [Cfe.settle, h]

theorem Cfe.settle_of_some {c : Cfe} {w : Word} (h : c.pend = some w) : c.settle = wordEffect w c := by
  rw [Cfe.settle, h]

/-- What one operation does to an idle CFE, the completion of a command it issues included. -/
def HostOp.effect (op : HostOp) (c : Cfe) : Cfe :=
  match op with
  | .read _ _ => c
  | .write off n v => ((c.busWrite off n v).getD c).settle
  | .wait => c
  | .reset => Cfe.reset

/-- What the rest of the script leaves of CFE if every command completes as soon as it is issued. -/
def State.outcome (s : State) : Cfe := s.script.foldl (fun c op => op.effect c) s.cfe.settle

theorem State.outcome_of_quiet {s : State} (h : s.Quiet) : s.outcome = s.cfe := by
  obtain ⟨hscript, hpend⟩ := h
  rw [State.outcome, hscript, List.foldl_nil, Cfe.settle_of_none hpend]

/-- An operation whose effect the next state shows, up to a pending completion, keeps the outcome. -/
theorem State.outcome_of_op {s t : State} {op : HostOp} {rest : List HostOp}
    (hs : s.script = op :: rest) (ht : t.script = rest) (hc : t.cfe.settle = op.effect s.cfe.settle) :
    t.outcome = s.outcome := by
  rw [State.outcome, State.outcome, hs, ht, hc, List.foldl_cons]

/-- Whichever agent moves, the outcome stays: a completion only does what `settle` has counted, and the
operations that are answered while a command is pending leave CFE alone or reset it (R72, R235). -/
theorem step_keeps_outcome {s t : State} (h : step s = .next t) : t.outcome = s.outcome := by
  rcases step_cases s with ⟨w, hp, -, hstep⟩ | ⟨-, hstep⟩ <;> rw [hstep] at h
  · cases h
    have hdone : (wordEffect w s.cfe).pend = none := (wordEffect_done w s.cfe).1
    simp only [State.outcome, Cfe.settle_of_some hp, Cfe.settle_of_none hdone]
  · rcases hostStep_cases h with ⟨-, rfl⟩ | ⟨off, n, rest, r, hs, -, rfl⟩ |
      ⟨off, n, v, rest, hs, hp, hw, rfl⟩ | ⟨off, n, v, rest, c, hs, hp, hw, hc, ht, -⟩ |
      ⟨rest, hs, rfl⟩ | ⟨rest, hs, rfl⟩
    · rfl
    · exact State.outcome_of_op hs rfl rfl
    · refine State.outcome_of_op hs rfl ?_
      simp [HostOp.effect, Cfe.settle_of_none hp, hw]
    · refine State.outcome_of_op hs ht ?_
      simp [HostOp.effect, Cfe.settle_of_none hp, hw, hc]
    · cases hb : s.cfe.busy with
      | true => simp [State.outcome, hs]
      | false => exact State.outcome_of_op hs rfl rfl
    · exact State.outcome_of_op hs rfl rfl

theorem run_keeps_outcome {s t : State} {k : Nat} (h : core.run k s = .next t) :
    t.outcome = s.outcome := by
  induction k generalizing s with
  | zero => cases h; rfl
  | succ k ih =>
    obtain ⟨u, hstep, hrun⟩ := run_succ_next h
    exact (ih hrun).trans (step_keeps_outcome hstep)

/-- Settles O53: a run that comes to rest leaves the outcome of its first state, which depends on CFE
and the script alone. The busy rule is what lets such runs exist; they agree without it. -/
theorem timingDoesNotMatter : Obligations.TimingDoesNotMatter := by
  rintro s t s' t' k l ⟨hcfe, hscript⟩ - hs hsq ht htq
  calc s'.cfe = s.outcome := by rw [← State.outcome_of_quiet hsq, run_keeps_outcome hs]
    _ = t.outcome := by rw [State.outcome, State.outcome, hcfe, hscript]
    _ = t'.cfe := by rw [← State.outcome_of_quiet htq, run_keeps_outcome ht]

end Sys2Proof.Machine
end

section
/-! The encoding: commands and their words, and the words that are no command's (R91 to R94). -/

namespace Sys2Proof

/-! ## Commands and their words -/

/-- A command's word decodes to it, command by command (R93). -/
@[simp] theorem decodeWord_encode (i : Instr) : decodeWord (encode i) = .command i := by
  cases i <;> rfl

theorem decodeWord_eq_command_iff (w : Word) (i : Instr) : decodeWord w = .command i ↔ w = encode i :=
  ⟨Machine.eq_encode_of_decodeWord, fun h => by rw [h, decodeWord_encode]⟩

/-- The twelve commands, in the order of R93. -/
def commands : List Instr :=
  [.nop, .crcinit, .crcupd, .crccalc, .bldupg, .bldiap, .bldend, .bldfw, .bldver, .bldbsz, .bldbdat, .parse]

theorem mem_commands (i : Instr) : i ∈ commands := by
  cases i <;> decide

/-- The opcodes of R93 as numbers. A command's word has `RSV` = 0, so it is its opcode. -/
def opcodes : List Nat := commands.map fun i => (encode i).toNat

theorem lt_of_mem_opcodes {n : Nat} (h : n ∈ opcodes) : n < 256 := by
  revert n
  decide

theorem toNat_mem_opcodes_iff (w : Word) : w.toNat ∈ opcodes ↔ ∃ i, decodeWord w = .command i := by
  rw [opcodes, List.mem_map]
  refine exists_congr fun i => ?_
  rw [and_iff_right (mem_commands i), BitVec.toNat_inj, decodeWord_eq_command_iff, eq_comm]

/-- A number is an opcode exactly when nothing stands above its low byte and that byte is an opcode:
the two fields of R91. -/
theorem mem_opcodes_iff_fields (n : Nat) : n ∈ opcodes ↔ n / 256 = 0 ∧ n % 256 ∈ opcodes := by
  constructor
  · intro h
    have hlt : n < 256 := lt_of_mem_opcodes h
    exact ⟨Nat.div_eq_of_lt hlt, by rwa [Nat.mod_eq_of_lt hlt]⟩
  · rintro ⟨hrsv, hop⟩
    rwa [Nat.mod_eq_of_lt (by omega)] at hop

/-- Settles O5: decoding inverts the encoding, and the opcodes are the commands' words. -/
theorem decodeAndEncodeAgree : Obligations.DecodeAndEncodeAgree :=
  ⟨decodeWord_eq_command_iff,
    fun w => (toNat_mem_opcodes_iff w).symm.trans (mem_opcodes_iff_fields w.toNat)⟩

/-- Settles O4: each of the words is a command's encoding. -/
theorem commandWordsDecode : Obligations.CommandWordsDecode :=
  ⟨decodeWord_encode .nop, decodeWord_encode .crcinit, decodeWord_encode .crcupd,
    decodeWord_encode .crccalc, decodeWord_encode .bldupg, decodeWord_encode .bldiap,
    decodeWord_encode .bldend, decodeWord_encode .bldfw, decodeWord_encode .bldver,
    decodeWord_encode .bldbsz, decodeWord_encode .bldbdat, decodeWord_encode .parse⟩

/-! ## The illegal space -/

namespace Machine

/-- No opcode lies in the ranges of the illegal space (R94). -/
theorem not_illegal_range_of_mem_opcodes {n : Nat} (h : n ∈ opcodes) :
    ¬(n / 256 ≠ 0 ∨ (0x04 ≤ n ∧ n ≤ 0x0F) ∨ (0x13 ≤ n ∧ n ≤ 0x1F) ∨ (0x24 ≤ n ∧ n ≤ 0x2F) ∨
      (0x31 ≤ n ∧ n ≤ 0xFF)) := by
  revert n
  decide

/-- The completion of a word that is no command's raises `ILLEGAL_COMMAND` and does nothing else
(R204). -/
theorem wordEffect_of_not_mem_opcodes {w : Word} (h : w.toNat ∉ opcodes) (c : Cfe) :
    wordEffect w c = c.raise .illegalCommand := by
  unfold wordEffect
  cases hd : decodeWord w with
  | command i => exact absurd ((toNat_mem_opcodes_iff w).mpr ⟨i, hd⟩) h
  | illegal _ => rfl

/-- A 32-bit write of any word to `CMD` issues it (R190). -/
theorem busWrite_cmd (w : Word) (c : Cfe) : c.busWrite 0x00 .w4 w = some (c.issue w) := rfl

/-- Settles O6: the write to `CMD` takes every word, and a word in the ranges is no command's. -/
theorem illegalWordsAreAcceptedThenRaise : Obligations.IllegalWordsAreAcceptedThenRaise := by
  intro s w hrange
  refine ⟨fun rest hp hs => ?_, fun hp hengine => ?_⟩
  · obtain ⟨t, ht, hcfe, -⟩ := step_write_taken hp hs (busWrite_cmd w s.cfe)
    exact ⟨t, ht, by rw [hcfe, Cfe.issue_pend]⟩
  · have hop : w.toNat ∉ opcodes := fun h => not_illegal_range_of_mem_opcodes h hrange
    rw [step_of_engine hp hengine, wordEffect_of_not_mem_opcodes hop]
    rfl

end Machine
end Sys2Proof
end

section
/-! The checksum function (R110 to R114): the fold as the library's, and `crc_byte` on numbers. -/

namespace Sys2Proof.Machine

/-! ## The fold -/

/-- `crc_fold` is the left fold of `crc_byte` (R111). -/
theorem crcFold_eq_foldl (r : Half) (s : List Byte) : crcFold r s = s.foldl crcByte r := by
  induction s generalizing r with
  | nil => rfl
  | cons b t ih => rw [crcFold, ih, List.foldl_cons]

/-- A sequence may be cut anywhere (R114). -/
theorem crcFold_append (r : Half) (s t : List Byte) :
    crcFold r (s ++ t) = crcFold (crcFold r s) t := by
  simp only [crcFold_eq_foldl, List.foldl_append]

theorem crc16_append (s t : List Byte) : crc16 (s ++ t) = crcFold (crc16 s) t :=
  crcFold_append Lit.crcInit s t

/-- Settles O15: a left fold over a joined sequence goes on from the fold of the first part. -/
theorem crcFoldStreams : Obligations.CrcFoldStreams :=
  ⟨crcFold_append, crc16_append⟩

/-- Settles O14: by the fold's own recursion at the front, by the streaming law at the end. -/
theorem crcFoldTakesBytesInOrder : Obligations.CrcFoldTakesBytesInOrder :=
  ⟨fun _ => rfl, fun r s b => crcFold_append r s [b], fun _ _ _ => rfl⟩

/-! ## `crc_byte` on numbers -/

/-- One step of `crc_byte` on numbers (R110): halve, and XOR the polynomial after an odd number. -/
def crcHalve (n : Nat) : Nat := if n % 2 = 1 then (n / 2) ^^^ 0xA001 else n / 2

theorem toNat_crcShift (r : Half) : (crcShift r).toNat = crcHalve r.toNat := by
  have hodd : r.getLsbD 0 = true ↔ r.toNat % 2 = 1 := by
    rw [BitVec.getLsbD, Nat.testBit_zero, decide_eq_true_iff]
  have hhalf : (r >>> 1).toNat = r.toNat / 2 := by
    rw [BitVec.toNat_ushiftRight, Nat.shiftRight_eq_div_pow, pow_one]
  unfold crcShift crcHalve
  by_cases h : r.toNat % 2 = 1
  · rw [if_pos (hodd.mpr h), if_pos h, BitVec.toNat_xor, hhalf]
    rfl
  · rw [if_neg (mt hodd.mp h), if_neg h, hhalf]

theorem toNat_crcShifts (n : Nat) (r : Half) : (crcShifts n r).toNat = crcHalve^[n] r.toNat := by
  induction n generalizing r with
  | zero => rfl
  | succ n ih => rw [crcShifts, ih, toNat_crcShift, Function.iterate_succ_apply]

/-- Settles O13: each of the eight shifts is one halving, and the byte is zero-extended before the
XOR. -/
theorem crcByteIsEightHalvings : Obligations.CrcByteIsEightHalvings := by
  intro r b
  have hxor : (r ^^^ b.setWidth 16).toNat = r.toNat ^^^ b.toNat := by
    rw [BitVec.toNat_xor, BitVec.toNat_setWidth_of_le (by decide)]
  calc (crcByte r b).toNat = crcHalve^[8] (r ^^^ b.setWidth 16).toNat := toNat_crcShifts 8 _
    _ = crcHalve^[8] (r.toNat ^^^ b.toNat) := by rw [hxor]

/-! ## The pair and the worked example -/

theorem toNat_hiByte (r : Half) : (hiByte r).toNat = r.toNat / 256 := by
  rw [hiByte, BitVec.extractLsb'_toNat, Nat.shiftRight_eq_div_pow]
  omega

theorem toNat_loByte (r : Half) : (loByte r).toNat = r.toNat % 256 := by
  rw [loByte, BitVec.extractLsb'_toNat, Nat.shiftRight_zero]

/-- Settles O16: `crc16` by its definition, the pair as quotient and remainder, and the example by
evaluation. -/
theorem crcOfTheReferenceFrame : Obligations.CrcOfTheReferenceFrame :=
  ⟨fun _ => rfl, fun r => ⟨toNat_hiByte r, toNat_loByte r⟩, by decide +kernel⟩

end Sys2Proof.Machine
end

section
/-! The checksum commands (R115 to R118), and what each family of commands writes and reads. -/

namespace Sys2Proof.Machine

/-! ## The checksum commands -/

/-- Settles O17: the word is the command's own, and the body is one assignment. -/
theorem crcinitSetsTheInitialValue : Obligations.CrcinitSetsTheInitialValue :=
  ⟨fun w => decodeWord_eq_command_iff w .crcinit, exec_eq .crcinit⟩

theorem crcupd_of_le {c : Cfe} (h : c.len.toNat ≤ 64) :
    c.crcupd = Cfe.succeed { c with crc := crcFold c.crc ((List.range c.len.toNat).map c.ibuf) } := by
  rcases crcupd_cases c with ⟨hlt, -⟩ | ⟨-, heq⟩
  · omega
  · rw [heq, input_eq_map]

theorem crcupd_of_gt {c : Cfe} (h : 64 < c.len.toNat) : c.crcupd = c.raise .lengthExceeded := by
  rcases crcupd_cases c with ⟨-, heq⟩ | ⟨hle, -⟩
  · exact heq
  · omega

theorem crccalc_of_le {c : Cfe} (h : c.len.toNat ≤ 64) :
    c.crccalc = Cfe.succeed { c with crc := crc16 ((List.range c.len.toNat).map c.ibuf) } := by
  rcases crccalc_cases c with ⟨hlt, -⟩ | ⟨-, heq⟩
  · omega
  · rw [heq, input_eq_map]

theorem crccalc_of_gt {c : Cfe} (h : 64 < c.len.toNat) : c.crccalc = c.raise .lengthExceeded := by
  rcases crccalc_cases c with ⟨-, heq⟩ | ⟨hle, -⟩
  · exact heq
  · omega

/-- Settles O18: the two cases of the body, by the limit of `LEN`. -/
theorem crcupdFoldsTheInput : Obligations.CrcupdFoldsTheInput := by
  refine ⟨fun w => decodeWord_eq_command_iff w .crcupd, fun s => ⟨fun hle => ?_, fun hgt => ?_⟩⟩
  · rw [exec_eq, cmdEffect, crcupd_of_le hle]
    rfl
  · rw [exec_eq, cmdEffect, crcupd_of_gt hgt]
    rfl

/-- Settles O19: the two cases of the body, by the limit of `LEN`. -/
theorem crccalcComputesTheInput : Obligations.CrccalcComputesTheInput := by
  refine ⟨fun w => decodeWord_eq_command_iff w .crccalc, fun s => ⟨fun hle => ?_, fun hgt => ?_⟩⟩
  · rw [exec_eq, cmdEffect, crccalc_of_le hle]
    rfl
  · rw [exec_eq, cmdEffect, crccalc_of_gt hgt]
    rfl

theorem crc_of_exec_crcinit {s t : State} (h : exec .crcinit s = .next t) : t.cfe.crc = 0xFFFF := by
  rw [exec_eq] at h
  cases h
  rfl

theorem crc_of_exec_crcupd {s t : State} (h : exec .crcupd s = .next t) (hl : s.cfe.len.toNat ≤ 64) :
    t.cfe.crc = crcFold s.cfe.crc ((List.range s.cfe.len.toNat).map s.cfe.ibuf) := by
  rw [exec_eq, cmdEffect, crcupd_of_le hl] at h
  cases h
  rfl

/-- Settles O20: each update folds its input into what the one before it left, and the two folds are
one over the joined input. -/
theorem crcupdChainEqualsOneChecksum : Obligations.CrcupdChainEqualsOneChecksum := by
  intro s a b c d e hinit hb hblen hupd hd hdlen hupd'
  rw [crc_of_exec_crcupd hupd' hdlen, hd, crc_of_exec_crcupd hupd hblen, hb, crc_of_exec_crcinit hinit]
  exact (crc16_append _ _).symm

/-! ## What each family writes -/

theorem mem_checksums_of_encode {i : Instr} (h : encode i = 0x01 ∨ encode i = 0x02 ∨ encode i = 0x03) :
    i ∈ [.crcinit, .crcupd, .crccalc] := by
  revert h
  cases i <;> decide

theorem mem_builds_of_encode {i : Instr}
    (h : (encode i).toNat ∈ [0x10, 0x11, 0x12, 0x20, 0x21, 0x22, 0x23]) :
    i ∈ [.bldupg, .bldiap, .bldend, .bldfw, .bldver, .bldbsz, .bldbdat] := by
  revert h
  cases i <;> decide

/-- No completion changes a byte outside `OBUF` (R118, R133, R174). -/
theorem Completes.read_eq_outside_obuf {w : Word} {c d : Cfe} (h : Completes w c d) {a : Nat}
    (ha : ¬(0x80 ≤ a ∧ a < 0xC0)) : d.mem.read a = c.mem.read a := by
  rcases h.mem_eq_or_build with hm | ⟨-, m, p, hp, rfl⟩
  · rw [hm]
  · rw [read_emit m p c hp, if_neg ha]

/-! ## Who reads `CRC` -/

theorem emit_withCrc (m : Byte) (p : List Byte) (c : Cfe) (r : Half) :
    Cfe.emit m p { c with crc := r } = { c.emit m p with crc := r } := rfl

/-- A build does not read `CRC` (R134). -/
theorem build_withCrc (max : Nat) (m : Byte) (c : Cfe) (r : Half) :
    Cfe.build max m { c with crc := r } = { c.build max m with crc := r } := by
  unfold Cfe.build
  by_cases h : max < c.count
  · rw [if_pos h, if_pos h]
    rfl
  · rw [if_neg h, if_neg h]
    rfl

/-- `CRCCALC` keeps what `CRC` held where it refuses its input, and does not read it otherwise (R117). -/
theorem crccalc_withCrc (c : Cfe) (r : Half) :
    ∃ r', Cfe.crccalc { c with crc := r } = { c.crccalc with crc := r' } := by
  unfold Cfe.crccalc
  by_cases h : Lit.ibufSize < c.count
  · rw [if_pos h, if_pos h]
    exact ⟨r, rfl⟩
  · rw [if_neg h, if_neg h]
    exact ⟨crc16 c.input, rfl⟩

theorem setResponse_withCrc (x : Option Response) (c : Cfe) (r : Half) :
    Cfe.setResponse x { c with crc := r } = { c.setResponse x with crc := r } := by
  cases x <;> rfl

/-- `PARSE` does not read `CRC` (R173). -/
theorem parse_withCrc (k : RspCmdOff) (c : Cfe) (r : Half) :
    Cfe.parse k { c with crc := r } = { c.parse k with crc := r } := by
  unfold Cfe.parse
  simp only [setResponse_withCrc]
  by_cases hlong : Lit.ibufSize < c.count
  · rw [if_pos hlong, if_pos hlong]
    rfl
  · rw [if_neg hlong, if_neg hlong]
    by_cases hshort : c.count < Lit.rspMin
    · rw [if_pos hshort, if_pos hshort]
      rfl
    · rw [if_neg hshort, if_neg hshort]
      rfl

/-- A command other than `CRCUPD` does the same, but for `CRC`, whatever `CRC` held. -/
theorem cmdEffect_withCrc {i : Instr} (hi : i ≠ .crcupd) (c : Cfe) (r : Half) :
    ∃ r', cmdEffect i { c with crc := r } = { cmdEffect i c with crc := r' } := by
  cases i with
  | crcupd => exact absurd rfl hi
  | crcinit => exact ⟨0xFFFF, rfl⟩
  | crccalc => exact crccalc_withCrc c r
  | nop => exact ⟨r, rfl⟩
  | bldupg | bldiap | bldend | bldbsz => exact ⟨r, emit_withCrc _ _ c r⟩
  | bldfw | bldver | bldbdat => exact ⟨r, build_withCrc _ _ c r⟩
  | parse => exact ⟨r, parse_withCrc _ c r⟩

/-- Settles O11: what a command writes follows from how its completion ends, and which command's word
may end so; that `CRC` is not read is said command by command. -/
theorem eachFamilyWritesOnlyItsRegisters : Obligations.EachFamilyWritesOnlyItsRegisters := by
  intro i s t h
  rw [exec_eq] at h
  cases h
  have hc := cmdEffect_completes i s.cfe
  obtain ⟨hlen, hbsize, -⟩ := hc.inputs
  refine ⟨fun hi => ?crc, fun hi => ?mem, fun a ha => hc.read_eq_outside_obuf ha, fun hi => ?response,
    hlen, hbsize, fun hi r => ?reads⟩
  case crc => exact hc.crc_eq_or_checksum.resolve_right fun hw => hi (mem_checksums_of_encode hw)
  case mem => exact hc.mem_eq_or_build.resolve_right fun hw => hi (mem_builds_of_encode hw.1)
  case response => exact hc.response_eq_of_ne fun hw => hi (eq_parse_of_encode hw)
  case reads =>
    obtain ⟨r', hr'⟩ := cmdEffect_withCrc hi s.cfe r
    exact ⟨r', by rw [exec_eq, hr']⟩

end Sys2Proof.Machine
end

section
/-! The frame builder (R130 to R141): the layout of a frame, and the frame that each build command
leaves in `OBUF`. -/

namespace Sys2Proof.Machine

/-! ## The layout of a frame -/

theorem byteAt_append (s t : List Byte) (j : Nat) :
    byteAt (s ++ t) j = if j < s.length then byteAt s j else byteAt t (j - s.length) := by
  split
  · exact List.getD_append s t 0 j (by assumption)
  · exact List.getD_append_right s t 0 j (by omega)

theorem byteAt_cons (b : Byte) (t : List Byte) (j : Nat) :
    byteAt (b :: t) j = if j = 0 then b else byteAt t (j - 1) := by
  cases j <;> rfl

theorem byteAt_replicate_zero (n j : Nat) : byteAt (List.replicate n 0x00) j = 0x00 :=
  List.getElem?_getD_replicate_default_eq _ n j

/-- A frame as its segments, one after the other (R131). -/
theorem frame_eq_segments (m : Byte) (p : List Byte) :
    frame m p = Lit.preamble ++ BitVec.ofNat 8 (p.length + 1) :: m :: (p ++ (Lit.postamble ++
      hiByte (crc16 (frameBody m p)) :: loByte (crc16 (frameBody m p)) ::
        List.replicate (Lit.frameSize - (p.length + 11)) 0x00)) := by
  simp [frame, frameBody]

/-- The byte at each offset of a frame. Past the check pair it is 0x00, whether the offset lies in the
padding or past the end. -/
theorem byteAt_frame (m : Byte) (p : List Byte) (j : Nat) :
    byteAt (frame m p) j =
      if j < 4 then byteAt Lit.preamble j
      else if j = 4 then BitVec.ofNat 8 (p.length + 1)
      else if j = 5 then m
      else if j < 6 + p.length then byteAt p (j - 6)
      else if j < 9 + p.length then byteAt Lit.postamble (j - (6 + p.length))
      else if j = 9 + p.length then hiByte (crc16 (frameBody m p))
      else if j = 10 + p.length then loByte (crc16 (frameBody m p))
      else 0x00 := by
  have hpre : Lit.preamble.length = 4 := rfl
  have hpost : Lit.postamble.length = 3 := rfl
  rw [frame_eq_segments]
  simp only [byteAt_append, byteAt_cons, byteAt_replicate_zero, hpre, hpost, Nat.sub_sub]
  -- Segment by segment: after the ones before it, both sides ask whether the offset lies in this one.
  refine if_ctx_congr Iff.rfl (fun _ => rfl) fun _ => ?length
  refine if_ctx_congr (by omega) (fun _ => rfl) fun _ => ?mode
  refine if_ctx_congr (by omega) (fun _ => rfl) fun _ => ?payload
  refine if_ctx_congr (by omega) (fun _ => rfl) fun _ => ?postamble
  refine if_ctx_congr (by omega) (fun _ => rfl) fun _ => ?high
  refine if_ctx_congr (by omega) (fun _ => rfl) fun _ => ?low
  exact if_ctx_congr (by omega) (fun _ => rfl) fun _ => rfl

theorem take_frame (m : Byte) (p : List Byte) : (frame m p).take (9 + p.length) = frameBody m p := by
  rw [frame, List.append_assoc]
  exact List.take_left' (by rw [length_frameBody, Nat.add_comm])

theorem hiByte_eq_ofNat (r : Half) : hiByte r = BitVec.ofNat 8 (r.toNat / 256) := by
  rw [← toNat_hiByte, BitVec.ofNat_toNat, BitVec.setWidth_eq]

theorem loByte_eq_ofNat (r : Half) : loByte r = BitVec.ofNat 8 (r.toNat % 256) := by
  rw [← toNat_loByte, BitVec.ofNat_toNat, BitVec.setWidth_eq]

/-- Settles O21: the layout of the frame's segments, whose first `9 + P` bytes are what the checksum
covers. -/
theorem frameLayout : Obligations.FrameLayout := by
  intro m p hp
  refine ⟨length_frame m p hp, fun j _ => ?_⟩
  rw [byteAt_frame, take_frame, hiByte_eq_ofNat, loByte_eq_ofNat]

/-- Frames with the same payload differ at most in the mode byte and the check pair (R139). -/
theorem byteAt_frame_eq_of_ne (m m' : Byte) (p : List Byte) {j : Nat} (hmode : j ≠ 5)
    (hhigh : j ≠ 9 + p.length) (hlow : j ≠ 10 + p.length) :
    byteAt (frame m p) j = byteAt (frame m' p) j := by
  simp only [byteAt_frame, if_neg hmode, if_neg hhigh, if_neg hlow]

theorem byteAt_frame_mode (m : Byte) (p : List Byte) : byteAt (frame m p) 5 = m := rfl

/-! ## The build commands -/

/-- `Builds i m p s`: the completion of `i` at `s` succeeds, leaves `frame(m, p)` in `OBUF`, and
changes nothing else but `PEND` and the `STATUS` bits named here (R133). -/
def Builds (i : Instr) (m : Byte) (p : List Byte) (s : State) : Prop :=
  ∃ mem : Memory, exec i s = .next { s with cfe := { s.cfe with
      pend := none, done := true, err := false, errcode := 0, mem := mem } } ∧
    ∀ a, mem.read a = if 0x80 ≤ a ∧ a < 0xC0 then byteAt (frame m p) (a - 0x80)
      else s.cfe.mem.read a

theorem builds_of_emit {i : Instr} {m : Byte} {p : List Byte} {s : State} (hp : p.length ≤ 53)
    (h : cmdEffect i s.cfe = s.cfe.emit m p) : Builds i m p s :=
  ⟨(s.cfe.emit m p).mem, by rw [exec_eq, h]; rfl, read_emit m p s.cfe hp⟩

/-- A build from `IBUF` frames its input, or refuses it and changes no byte (R133). -/
theorem builds_or_raises {i : Instr} {max : Nat} {m : Byte} (hmax : max ≤ 53)
    (h : ∀ c, cmdEffect i c = c.build max m) (s : State) :
    (s.cfe.len.toNat ≤ max → Builds i m ((List.range s.cfe.len.toNat).map s.cfe.ibuf) s) ∧
    (max < s.cfe.len.toNat → exec i s = .next { s with cfe := { s.cfe with
      pend := none, done := true, err := true, errcode := 1 } }) := by
  rcases build_cases max m s.cfe with ⟨hgt, hraise⟩ | ⟨hle, hemit⟩
  · refine ⟨fun hle => absurd hle (by omega), fun _ => ?_⟩
    rw [exec_eq, h, hraise]
    rfl
  · refine ⟨fun _ => ?_, fun hgt => absurd hgt (by omega)⟩
    rw [← input_eq_map]
    exact builds_of_emit (by rw [length_input]; omega) ((h s.cfe).trans hemit)

/-- The reference frame of R135. -/
theorem frame_upgrade : frame 0x2B [0x01, 0x00, 0x01] =
    [0xA5, 0x5A, 0xFC, 0x2E, 0x04, 0x2B, 0x01, 0x00, 0x01, 0xFC, 0x5A, 0xA5, 0x7C, 0x7B] ++
      List.replicate 50 0x00 := by
  decide +kernel

theorem byteAt_append_zeros (s : List Byte) (n j : Nat) :
    byteAt (s ++ List.replicate n 0x00) j = byteAt s j := by
  rw [byteAt_append, byteAt_replicate_zero]
  split
  · rfl
  · exact (List.getD_eq_default s 0 (by omega)).symm

/-- Settles O22: the frame of R135 by evaluation; its zeros are what the literal bytes read as past
their end. -/
theorem bldupgBuildsTheReferenceFrame : Obligations.BldupgBuildsTheReferenceFrame := by
  refine ⟨fun w => decodeWord_eq_command_iff w .bldupg, frame_upgrade, fun s => ?_⟩
  obtain ⟨mem, hexec, hread⟩ : Builds .bldupg 0x2B [0x01, 0x00, 0x01] s := builds_of_emit (by decide) rfl
  refine ⟨mem, hexec, fun a => ?_⟩
  rw [hread, frame_upgrade, byteAt_append_zeros]

/-- Settles O23: `BLDIAP` emits the configured frame in every state. -/
theorem bldiapBuildsTheConfiguredFrame : Obligations.BldiapBuildsTheConfiguredFrame :=
  ⟨fun w => decodeWord_eq_command_iff w .bldiap, length_iapPayload,
    fun _ => builds_of_emit length_iapPayload rfl⟩

/-- Settles O24: `BLDEND` emits the configured frame in every state. -/
theorem bldendBuildsTheConfiguredFrame : Obligations.BldendBuildsTheConfiguredFrame :=
  ⟨fun w => decodeWord_eq_command_iff w .bldend, length_endPayload,
    fun _ => builds_of_emit length_endPayload rfl⟩

/-- Settles O25: a build from `IBUF` with the limit of R138. -/
theorem bldfwFramesTheInput : Obligations.BldfwFramesTheInput :=
  ⟨fun w => decodeWord_eq_command_iff w .bldfw, builds_or_raises (by decide) fun _ => rfl⟩

/-- Settles O26: a build from `IBUF` with the limit of R139; the two frames by the layout. -/
theorem bldverFramesTheInput : Obligations.BldverFramesTheInput := by
  refine ⟨fun w => decodeWord_eq_command_iff w .bldver, fun p _ => ⟨?_, fun j => ?_⟩,
    builds_or_raises (by decide) fun _ => rfl⟩
  · rw [byteAt_frame_mode, byteAt_frame_mode]
    decide
  · exact byteAt_frame_eq_of_ne 0x80 0x82 p

/-- `le32` as the quotients of the value (R11). -/
theorem le32_eq_ofNat (v : Word) :
    le32 v = [BitVec.ofNat 8 v.toNat, BitVec.ofNat 8 (v.toNat / 2 ^ 8),
      BitVec.ofNat 8 (v.toNat / 2 ^ 16), BitVec.ofNat 8 (v.toNat / 2 ^ 24)] := by
  have hlanes : le32 v = [lane v 0, lane v 1, lane v 2, lane v 3] := rfl
  simp [hlanes, lane_eq_ofNat]

/-- Settles O27: `BLDBSZ` emits the four bytes of `BSIZE` in every state. -/
theorem bldbszFramesTheSize : Obligations.BldbszFramesTheSize := by
  refine ⟨fun w => decodeWord_eq_command_iff w .bldbsz, fun s => ?_⟩
  rw [← le32_eq_ofNat]
  exact builds_of_emit ((length_lanes 4 s.cfe.bsize).trans_le (by decide)) rfl

/-- Settles O28: a build from `IBUF` with the limit of R141. -/
theorem bldbdatFramesTheInput : Obligations.BldbdatFramesTheInput :=
  ⟨fun w => decodeWord_eq_command_iff w .bldbdat, builds_or_raises (by decide) fun _ => rfl⟩

end Sys2Proof.Machine
end

section
/-! The response parser (R170 to R174): what `PARSE` makes of the bytes of `IBUF`. -/

namespace Sys2Proof.Machine

/-! ## The fields of a response -/

theorem rspOffset_le_five (k : RspCmdOff) : rspOffset k ≤ 5 := by
  cases k <;> decide

/-- `rd_le32` as byte lanes, lane 0 first (R11, R62). -/
theorem rdLe32_eq_ofLanes (s : List Byte) (k : Nat) :
    rdLe32 s k = ofLanes [byteAt s k, byteAt s (k + 1), byteAt s (k + 2), byteAt s (k + 3)] := by
  simp [rdLe32, ofLanes, BitVec.shiftLeft_or_distrib, ← BitVec.shiftLeft_add, BitVec.or_assoc]

/-- `rd_le32` within the input is the little-endian number of four bytes of `IBUF` (R11). -/
theorem rdLe32_input {c : Cfe} {k : Nat} (h : k + 3 < c.len.toNat) :
    rdLe32 c.input k = BitVec.ofNat 32 ((c.ibuf k).toNat + 2 ^ 8 * (c.ibuf (k + 1)).toNat +
      2 ^ 16 * (c.ibuf (k + 2)).toNat + 2 ^ 24 * (c.ibuf (k + 3)).toNat) := by
  have hrun : rdLe32 c.input k = ofLanes (c.mem.readList (0x40 + k) 4) := by
    rw [rdLe32_eq_ofLanes, byteAt_input c k (by omega), byteAt_input c (k + 1) (by omega),
      byteAt_input c (k + 2) (by omega), byteAt_input c (k + 3) h]
    rfl
  have hsum := (toNat_ofLanes_readList c.mem (0x40 + k) (Nat.le_refl 4)).1
  rw [← hrun] at hsum
  rw [← BitVec.setWidth_eq (rdLe32 c.input k), ← BitVec.ofNat_toNat, hsum]
  simp [Finset.sum_range_succ, Cfe.ibuf, Nat.add_assoc]

/-- The tag comparison of R172, byte by byte. -/
theorem take_three_input_iff {c : Cfe} (h : 3 ≤ c.len.toNat) :
    c.input.take 3 = [0xA5, 0x5A, 0xFF] ↔ c.ibuf 0 = 0xA5 ∧ c.ibuf 1 = 0x5A ∧ c.ibuf 2 = 0xFF := by
  have htake : c.input.take 3 = [c.ibuf 0, c.ibuf 1, c.ibuf 2] := by
    rw [input_eq_map, ← List.map_take, List.take_range, Nat.min_eq_left h]
    rfl
  simp [htake]

/-- The response that an input of 10 to 64 bytes holds, by the bytes of `IBUF`, with the command echo
at `k` (R172). -/
def Cfe.responseAt (k : Nat) (c : Cfe) : Option Response :=
  if c.ibuf 0 = 0xA5 ∧ c.ibuf 1 = 0x5A ∧ c.ibuf 2 = 0xFF then
    some {
      command := c.ibuf k
      packetNumber := BitVec.ofNat 32 ((c.ibuf (k + 1)).toNat + 2 ^ 8 * (c.ibuf (k + 2)).toNat +
        2 ^ 16 * (c.ibuf (k + 3)).toNat + 2 ^ 24 * (c.ibuf (k + 4)).toNat) }
  else none

/-- What a response holds depends on bytes 0 to 2 and `k` to `k + 4` alone (R172). -/
theorem responseAt_congr {k : Nat} {c d : Cfe}
    (h : ∀ j, j < 3 ∨ (k ≤ j ∧ j ≤ k + 4) → d.ibuf j = c.ibuf j) : d.responseAt k = c.responseAt k := by
  simp [Cfe.responseAt, h]

/-! ## `PARSE` by the length of its input -/

section
variable {c : Cfe} (k : RspCmdOff)

theorem parse_of_gt (h : 64 < c.len.toNat) : c.parse k = (c.setResponse none).raise .lengthExceeded := by
  rcases parse_cases k c with ⟨-, hparse⟩ | ⟨hlt, -⟩ | ⟨-, hle, -⟩
  · exact hparse
  · omega
  · omega

theorem parse_of_lt (h : c.len.toNat < 10) : c.parse k = (c.setResponse none).raise .shortResponse := by
  rcases parse_cases k c with ⟨hgt, -⟩ | ⟨-, hparse⟩ | ⟨hge, -⟩
  · omega
  · exact hparse
  · omega

/-- An input of 10 to 64 bytes holds all the fields, at each of the three offsets (R171, R173). -/
theorem parse_of_le (hge : 10 ≤ c.len.toNat) (hle : c.len.toNat ≤ 64) :
    c.parse k = (c.setResponse (c.responseAt (rspOffset k))).succeed := by
  have hk := rspOffset_le_five k
  have htag := take_three_input_iff (c := c) (by omega)
  rcases parse_cases k c with ⟨hgt, -⟩ | ⟨hlt, -⟩ | ⟨-, -, ⟨h, hparse⟩ | ⟨h, hparse⟩⟩
  · omega
  · omega
  · rw [hparse, Cfe.responseAt, if_pos (htag.mp h), byteAt_input c _ (by omega),
      rdLe32_input (by omega)]
  · rw [hparse, Cfe.responseAt, if_neg (htag.not.mp h)]

end

/-! ## The statements -/

/-- Settles O29: the outcome by the length of the input, then by the tag. -/
theorem parseDecidesTheResponse : Obligations.ParseDecidesTheResponse := by
  refine ⟨fun w => decodeWord_eq_command_iff w .parse, ⟨rspOffset_k3, rspOffset_k4, rspOffset_k5⟩,
    fun s => ⟨fun hgt => ?long, fun hlt => ?short, fun hge hle htag => ?valid, fun hge hle htag => ?invalid⟩⟩
  case long =>
    rw [exec_eq, cmdEffect, parse_of_gt _ hgt]
    rfl
  case short =>
    rw [exec_eq, cmdEffect, parse_of_lt _ hlt]
    rfl
  case valid =>
    rw [exec_eq, cmdEffect, parse_of_le _ hge hle, Cfe.responseAt, if_pos htag]
    rfl
  case invalid =>
    rw [exec_eq, cmdEffect, parse_of_le _ hge hle, Cfe.responseAt, if_neg htag]
    rfl

/-- Settles O31: both inputs hold the same response, and what `PARSE` leaves is that response. -/
theorem parseReadsOnlyItsFields : Obligations.ParseReadsOnlyItsFields := by
  refine ⟨⟨rspOffset_k3, rspOffset_k4, rspOffset_k5⟩, fun s l m hge hle hge' hle' hfields => ?_⟩
  have hresp : Cfe.responseAt (rspOffset Config.rspCmdOff) { s.cfe with len := l, mem := m } =
      s.cfe.responseAt (rspOffset Config.rspCmdOff) := responseAt_congr hfields
  refine ⟨_, _, exec_eq .parse s, exec_eq .parse _, ?_⟩
  rw [cmdEffect, cmdEffect, parse_of_le _ hge hle, parse_of_le _ hge' hle', hresp]
  cases s.cfe.responseAt (rspOffset Config.rspCmdOff) <;> exact ⟨rfl, rfl, rfl, rfl⟩

end Sys2Proof.Machine
end

section
/-! The life cycle of a command: its issue, its completion, and `NOP` (R190 to R194). -/

namespace Sys2Proof.Machine

/-! ## Completion -/

/-- The completion of a word that decodes to a command is that command's effect (R191). -/
theorem wordEffect_of_decodeWord {w : Word} {i : Instr} (h : decodeWord w = .command i) (c : Cfe) :
    wordEffect w c = cmdEffect i c := by
  rw [wordEffect, h]

/-- Settles O7: the engine's step completes the word, and the word's effect is the command's. -/
theorem stepRunsTheDecodedCommand : Obligations.StepRunsTheDecodedCommand := by
  intro s w i hp hengine hd
  rw [step_of_engine hp hengine, wordEffect_of_decodeWord hd, exec_eq]

/-- Settles O12: `NOP` has no body, so its effect is the end of a successful completion alone. -/
theorem nopChangesOnlyStatus : Obligations.NopChangesOnlyStatus :=
  ⟨fun w => decodeWord_eq_command_iff w .nop, exec_eq .nop⟩

/-! ## Issue -/

/-- The access table allows no other width at `CMD` (R64). -/
theorem busWrite_cmd_of_ne {n : Width} (hn : n ≠ .w4) (w : Word) (c : Cfe) :
    c.busWrite 0x00 n w = none := by
  cases n with
  | w1 => rfl
  | w2 => rfl
  | w4 => exact absurd rfl hn

/-- A write while a command is pending and its latency runs is a hazard (R235, R240). -/
theorem step_write_busy {s : State} {off : Offset} {n : Width} {v : Word} {rest : List HostOp}
    (hp : s.cfe.pend ≠ none) (hd : s.delay ≠ 0) (hs : s.script = .write off n v :: rest) :
    step s = .fault (.hazard (writeHazard off)) := by
  have hbusy : s.cfe.busy = true := s.cfe.busy_iff.mpr hp
  rw [step_of_delay hd (by simp [hs]), hostStep, hs]
  exact if_pos hbusy

/-- Settles O8: a taken write, a forbidden write and a write while busy, each at `CMD`. -/
theorem cmdWriteIssuesTheCommand : Obligations.CmdWriteIssuesTheCommand := by
  intro s w rest
  refine ⟨fun hp hs => ?_, fun n hp hn hs => ?_, fun hp hd hs => ?_⟩
  · obtain ⟨t, ht, hcfe, hscript, hreplies⟩ := step_write_taken hp hs (busWrite_cmd w s.cfe)
    exact ⟨t, ht, hscript, hreplies, hcfe⟩
  · exact ⟨_, step_write_error hp hs (busWrite_cmd_of_ne hn w s.cfe), rfl, rfl, rfl⟩
  · exact step_write_busy hp hd hs

end Sys2Proof.Machine
end

section
/-! The busy hazard: which accesses stop the machine while a command is pending, and that nothing else
does (R200, R207, R210, R211, R235, R240). -/

namespace Sys2Proof.Machine

/-! ## What an operation risks while a command is pending -/

/-- The hazard that an operation is while `BUSY` = 1; `none` for the turns of `wait`, the reset input
and a 32-bit read of `STATUS` (R235, R240). -/
def HostOp.hazard? (op : HostOp) : Option HazardKind :=
  match op with
  | .read off n => if isStatusRead off n then none else some .readWhileBusy
  | .write off _ _ => some (writeHazard off)
  | .wait => none
  | .reset => none

theorem isStatusRead_iff (off : Offset) (n : Width) : isStatusRead off n = true ↔ off = 0x04 ∧ n = .w4 := by
  simp [isStatusRead]

theorem hazard?_read_of_ne {off : Offset} {n : Width} (h : ¬(off = 0x04 ∧ n = .w4)) :
    (HostOp.read off n).hazard? = some .readWhileBusy :=
  if_neg ((isStatusRead_iff off n).not.mpr h)

/-- The operations that are hazards: every access but a 32-bit read of `STATUS` (R235). -/
theorem hazard?_ne_none_iff (op : HostOp) :
    op.hazard? ≠ none ↔
      (∃ off n, op = .read off n ∧ ¬(off = 0x04 ∧ n = .w4)) ∨ ∃ off n v, op = .write off n v := by
  cases op with
  | read off n => simp [HostOp.hazard?, isStatusRead_iff]
  | write off n v => simp [HostOp.hazard?]
  | wait => simp [HostOp.hazard?]
  | reset => simp [HostOp.hazard?]

theorem regionOf_eq_cmd_iff (off : Offset) : regionOf off = .cmd ↔ off.toNat < 0x04 := by
  revert off
  decide +kernel

theorem writeHazard_of_ge {off : Offset} (h : 0x04 ≤ off.toNat) : writeHazard off = .writeWhileBusy :=
  if_neg ((regionOf_eq_cmd_iff off).not.mpr (by omega))

/-! ## When a step stops -/

/-- The outside's next operation is a hazard, or it is answered. -/
theorem hostStep_hazard_cases {s : State} {op : HostOp} {rest : List HostOp} (hs : s.script = op :: rest) :
    (s.cfe.pend ≠ none ∧ ∃ k, op.hazard? = some k ∧ hostStep s = .fault (.hazard k)) ∨
    ((s.cfe.pend = none ∨ op.hazard? = none) ∧ ∃ t, hostStep s = .next t) := by
  rw [hostStep, hs]
  cases op with
  | read off n =>
    rcases hostRead_cases off n { s with script := rest } with ⟨hp, hr, hstep⟩ | ⟨ha, r, hstep⟩
    · exact .inl ⟨hp, .readWhileBusy, by simp [HostOp.hazard?, hr], hstep⟩
    · exact .inr ⟨ha.imp_right fun hr => if_pos hr, _, hstep⟩
  | write off n v =>
    rcases hostWrite_cases off n v { s with script := rest } with
      ⟨hp, hstep⟩ | ⟨hp, -, hstep⟩ | ⟨hp, -, t, -, hstep, -⟩
    · exact .inl ⟨hp, _, rfl, hstep⟩
    · exact .inr ⟨.inl hp, _, hstep⟩
    · exact .inr ⟨.inl hp, t, hstep⟩
  | wait => exact .inr ⟨.inr rfl, _, rfl⟩
  | reset => exact .inr ⟨.inr rfl, _, rfl⟩

/-- A command is pending, the host is to move, and `op` is its next operation. -/
def State.BusyAt (s : State) (op : HostOp) : Prop :=
  s.cfe.pend ≠ none ∧ s.delay ≠ 0 ∧ ∃ rest, s.script = op :: rest

/-- A step stops at a hazard, or it answers a next state: a completion always does (R192). -/
theorem step_hazard_cases (s : State) :
    (∃ op k, s.BusyAt op ∧ op.hazard? = some k ∧ step s = .fault (.hazard k)) ∨
    ((∀ op, s.BusyAt op → op.hazard? = none) ∧ ∃ t, step s = .next t) := by
  rcases step_cases s with ⟨w, -, hengine, hstep⟩ | ⟨hhost, hstep⟩
  · refine .inr ⟨fun op ⟨_, hd, rest, hs⟩ => ?_, _, hstep⟩
    exact absurd hengine (by simp [hd, hs])
  · rw [hstep]
    cases hs : s.script with
    | nil => exact .inr ⟨fun op ⟨_, _, rest, hs'⟩ => absurd (hs.symm.trans hs') nofun, s,
        by rw [hostStep, hs]⟩
    | cons op rest =>
      rcases hostStep_hazard_cases hs with ⟨hp, k, hk, hfault⟩ | ⟨hsafe, hnext⟩
      · obtain ⟨hd, -⟩ := hhost.resolve_left hp
        exact .inl ⟨op, k, ⟨hp, hd, rest, hs⟩, hk, hfault⟩
      · refine .inr ⟨fun op' ⟨hp, _, rest', hs'⟩ => ?_, hnext⟩
        cases hs.symm.trans hs'
        exact hsafe.resolve_left hp

theorem step_of_hazard {s : State} {op : HostOp} {k : HazardKind} (h : s.BusyAt op)
    (hk : op.hazard? = some k) : step s = .fault (.hazard k) := by
  rcases step_hazard_cases s with ⟨op', k', ⟨-, -, rest', hs'⟩, hk', hstep⟩ | ⟨hnone, -⟩
  · obtain ⟨-, -, rest, hs⟩ := h
    cases hs.symm.trans hs'
    cases hk.symm.trans hk'
    exact hstep
  · exact absurd (hk.symm.trans (hnone op h)) nofun

theorem isFault_step_iff (s : State) : isFault (step s) = true ↔ ∃ op, s.BusyAt op ∧ op.hazard? ≠ none := by
  rcases step_hazard_cases s with ⟨op, k, hbusy, hk, hstep⟩ | ⟨hnone, t, hstep⟩ <;> rw [hstep]
  · exact ⟨fun _ => ⟨op, hbusy, by simp [hk]⟩, fun _ => rfl⟩
  · exact ⟨nofun, fun ⟨op, hbusy, hop⟩ => absurd (hnone op hbusy) hop⟩

/-- A step is a hazard or answers a next state, so none is refused. -/
theorem step_ne_refused (s : State) (r : Refusal) : step s ≠ .refused r := by
  rcases step_hazard_cases s with ⟨_, _, -, -, hstep⟩ | ⟨-, t, hstep⟩ <;> rw [hstep] <;> nofun

/-- `STATUS` can be read while a command is pending (R235). -/
theorem step_status_read_busy {s : State} {rest : List HostOp} (hd : s.delay ≠ 0)
    (hs : s.script = .read 0x04 .w4 :: rest) :
    step s = .next (({ s with script := rest }).tick.reply (.data s.cfe.status)) := by
  rw [step_of_delay hd (by simp [hs]), hostStep, hs]
  exact if_neg (by simp [isStatusRead])

/-! ## The statements -/

/-- Settles O40: the one read that is answered, and the hazard of each other access. -/
theorem busyAccessesAreHazards : Obligations.BusyAccessesAreHazards := by
  intro s w rest hp hd
  have hbusy (op : HostOp) (hs : s.script = op :: rest) : s.BusyAt op := ⟨by simp [hp], hd, rest, hs⟩
  refine ⟨fun hs => ?status, fun off n hs hne => ?read, fun v hs => ?cmd, fun off n v hs hge => ?write,
    fun off n v hs _ => ?low⟩
  case status => exact ⟨_, step_status_read_busy hd hs, rfl, rfl, rfl⟩
  case read => exact step_of_hazard (hbusy _ hs) (hazard?_read_of_ne (not_and_or.mpr hne))
  case cmd => exact step_of_hazard (hbusy _ hs) rfl
  case write => exact step_of_hazard (hbusy _ hs) (congrArg some (writeHazard_of_ge hge))
  case low => exact ⟨_, step_of_hazard (hbusy _ hs) rfl⟩

/-- Settles O41: a step faults exactly at a hazard, and the hazards are the accesses the statement
lists. -/
theorem onlyHazardsStopTheMachine : Obligations.OnlyHazardsStopTheMachine := by
  refine ⟨fun s => ?_, step_ne_refused⟩
  simp only [isFault_step_iff, hazard?_ne_none_iff]
  constructor
  · rintro ⟨op, ⟨hp, hd, rest, hs⟩, hop⟩
    exact ⟨hp, hd, op, rest, hs, hop⟩
  · rintro ⟨hp, hd, op, rest, hs, hop⟩
    exact ⟨op, ⟨hp, hd, rest, hs⟩, hop⟩

end Sys2Proof.Machine
end

section
/-! The reset input (R230, R231), an idle CFE (R233), and the busy rule: a script that keeps it never
meets a hazard (R235, R240, R241) and comes to rest (R243). -/

namespace Sys2Proof.Machine

/-! ## The reset input and an empty script -/

section
variable {s : State} {rest : List HostOp}

theorem hostStep_nil (hs : s.script = []) : hostStep s = .next s := by rw [hostStep, hs]

/-- The reset input is answered whether or not a command is pending (R230, R231). -/
theorem hostStep_reset (hs : s.script = .reset :: rest) :
    hostStep s = .next { s with cfe := State.reset.cfe, script := rest } := by
  rw [hostStep, hs]
  rfl

theorem step_reset_of_idle (hp : s.cfe.pend = none) (hs : s.script = .reset :: rest) :
    step s = .next { s with cfe := State.reset.cfe, script := rest } := by
  rw [step_of_idle hp, hostStep_reset hs]

end

/-- Settles O3: with nothing pending, the outside moves. -/
theorem resetInputOnIdleCfe : Obligations.ResetInputOnIdleCfe := fun _ _ => step_reset_of_idle

/-- Settles O54: with nothing pending, the outside moves, and it has nothing to do. -/
theorem idleCfeStaysAsItIs : Obligations.IdleCfeStaysAsItIs :=
  fun _ hp hs => (step_of_idle hp).trans (hostStep_nil hs)

/-- Settles O2: the outside moves while the latency runs; once it has run out, the completion leaves
the CFE idle, its host's side as it was, and the reset input overwrites what it did. -/
theorem resetDiscardsThePendingCommand : Obligations.ResetDiscardsThePendingCommand := by
  intro s w rest hp hs
  refine ⟨fun hd => ?_, fun hd => ?_⟩
  · rw [step_of_delay hd (by simp [hs]), hostStep_reset hs]
  · have hdone : (wordEffect w s.cfe).pend = none := (wordEffect_done w s.cfe).1
    exact ⟨_, step_of_engine hp (.inl hd),
      step_reset_of_idle (s := { s with cfe := wordEffect w s.cfe }) hdone hs⟩

/-! ## The busy rule, one operation at a time -/

section
variable {b : Bool} {off : Offset} {n : Width} {v : Word} {script rest : List HostOp}

@[simp] theorem keepsBusyRule_wait :
    keepsBusyRule b (.wait :: rest) = keepsBusyRule false rest := by cases b <;> rfl

@[simp] theorem keepsBusyRule_reset :
    keepsBusyRule b (.reset :: rest) = keepsBusyRule false rest := by cases b <;> rfl

/-- After a write to `CMD` a command may be pending, taken or not (R235). -/
theorem keepsBusyRule_write :
    keepsBusyRule false (.write off n v :: rest) = keepsBusyRule (decide (regionOf off = .cmd)) rest := rfl

theorem keepsBusyRule_read (h : keepsBusyRule b (.read off n :: rest) = true) :
    keepsBusyRule b rest = true := by
  cases b with
  | false => exact h
  | true => exact (Bool.and_eq_true_iff.mp h).2

/-- What is legal while a command may be pending is legal once it has completed (R235). -/
theorem keepsBusyRule_false (h : keepsBusyRule b script = true) : keepsBusyRule false script = true := by
  cases b with
  | false => exact h
  | true =>
    induction script with
    | nil => rfl
    | cons op rest ih =>
      cases op with
      | read off n => exact ih (keepsBusyRule_read h)
      | write off n v => exact absurd h nofun
      | wait => exact h
      | reset => exact h

/-- The rule's busy flag after an idle CFE has taken a write is `BUSY` itself (R190, R235). -/
theorem busy_of_busWrite {c d : Cfe} (hp : c.pend = none) (h : c.busWrite off n v = some d) :
    d.busy = decide (regionOf off = .cmd) := by
  rcases busWrite_cases h with ⟨hr, rfl⟩ | ⟨hr, rfl⟩ | ⟨hr, rfl⟩ | ⟨hr, -, rfl⟩ <;>
    simp [hr, hp, Cfe.busy]

/-- The rule allows no hazard while a command is pending (R235, R240). -/
theorem hazard?_of_keepsBusyRule {op : HostOp} (h : keepsBusyRule true (op :: rest) = true) :
    op.hazard? = none := by
  cases op with
  | read off n => exact if_pos (Bool.and_eq_true_iff.mp h).1
  | write off n v => exact absurd h nofun
  | wait => rfl
  | reset => rfl

end

/-! ## The busy rule along a run -/

/-- The rest of the host's script keeps the busy rule, as the CFE stands (R235). -/
abbrev State.KeepsBusyRule (s : State) : Prop := keepsBusyRule s.cfe.busy s.script = true

theorem hostStep_keeps_busyRule {s t : State} (hk : s.KeepsBusyRule) (h : hostStep s = .next t) :
    t.KeepsBusyRule := by
  rcases hostStep_cases h with ⟨-, rfl⟩ | ⟨off, n, rest, r, hs, -, rfl⟩ |
    ⟨off, n, v, rest, hs, hp, -, rfl⟩ | ⟨off, n, v, rest, c, hs, hp, hw, hc, ht, -⟩ |
    ⟨rest, hs, rfl⟩ | ⟨rest, hs, rfl⟩
  · exact hk
  all_goals rw [State.KeepsBusyRule, hs] at hk
  · exact keepsBusyRule_read hk
  · rw [Cfe.busy_of_none hp, keepsBusyRule_write] at hk
    rw [State.KeepsBusyRule, State.reply_cfe, State.tick_cfe, Cfe.busy_of_none hp]
    exact keepsBusyRule_false hk
  · rw [Cfe.busy_of_none hp, keepsBusyRule_write] at hk
    rwa [State.KeepsBusyRule, hc, ht, busy_of_busWrite hp hw]
  · rw [keepsBusyRule_wait] at hk
    cases hb : s.cfe.busy <;> simpa [State.KeepsBusyRule, hb] using hk
  · rw [keepsBusyRule_reset] at hk
    exact hk

theorem step_keeps_busyRule {s t : State} (hk : s.KeepsBusyRule) (h : step s = .next t) :
    t.KeepsBusyRule := by
  rcases step_cases s with ⟨w, -, -, hstep⟩ | ⟨-, hstep⟩ <;> rw [hstep] at h
  · cases h
    rw [State.KeepsBusyRule, Cfe.busy_of_none (wordEffect_done w s.cfe).1]
    exact keepsBusyRule_false hk
  · exact hostStep_keeps_busyRule hk h

/-- Settles O50: a step can only stop at a hazard, which the rule excludes, and it keeps the rule. -/
theorem busyRuleExcludesHazards : Obligations.BusyRuleExcludesHazards := by
  intro s hk
  rcases step_hazard_cases s with ⟨op, k, ⟨hp, -, rest, hs⟩, hop, -⟩ | ⟨-, t, hstep⟩
  · rw [hs, s.cfe.busy_iff.mpr hp] at hk
    exact absurd (hop.symm.trans (hazard?_of_keepsBusyRule hk)) nofun
  · exact ⟨t, hstep, step_keeps_busyRule hk hstep⟩

/-! ## Coming to rest -/

/-- What is left to do: the operations of the script, then the accesses before the pending command's
completion and the completion itself. -/
def State.remaining (s : State) : ℕ ×ₗ ℕ :=
  toLex (s.script.length, if s.cfe.busy then s.delay + 1 else 0)

theorem State.remaining_lt_of_op {s t : State} {op : HostOp} (h : s.script = op :: t.script) :
    t.remaining < s.remaining :=
  Prod.Lex.toLex_lt_toLex.mpr (.inl (by simp [h]))

/-- Until all is quiet, each step does some of what is left: a completion ends the pending command, an
operation leaves the script, or a turn of `wait` uses up an access of the latency (R98, R243). -/
theorem step_remaining_lt {s t : State} (hq : ¬s.Quiet) (h : step s = .next t) :
    t.remaining < s.remaining := by
  rcases step_cases s with ⟨w, hp, -, hstep⟩ | ⟨hhost, hstep⟩ <;> rw [hstep] at h
  · cases h
    refine Prod.Lex.toLex_lt_toLex.mpr (.inr ⟨rfl, ?_⟩)
    simp [Cfe.busy_of_none (wordEffect_done w s.cfe).1, Cfe.busy_of_some hp]
  · rcases hostStep_cases h with ⟨hs, -⟩ | ⟨off, n, rest, r, hs, -, rfl⟩ |
      ⟨off, n, v, rest, hs, -, -, rfl⟩ | ⟨off, n, v, rest, c, hs, -, -, -, rfl, -⟩ |
      ⟨rest, hs, rfl⟩ | ⟨rest, hs, rfl⟩
    · exact absurd ⟨hs, hhost.resolve_right fun hrun => hrun.2 hs⟩ hq
    · exact State.remaining_lt_of_op hs
    · exact State.remaining_lt_of_op hs
    · exact State.remaining_lt_of_op hs
    · cases hb : s.cfe.busy with
      | false => exact State.remaining_lt_of_op hs
      | true =>
        have hd : s.delay ≠ 0 := (hhost.resolve_left (s.cfe.busy_iff.mp hb)).1
        refine Prod.Lex.toLex_lt_toLex.mpr (.inr ⟨by simp [hs], ?_⟩)
        simp only [State.reply_cfe, State.tick_cfe, State.reply_delay, State.tick_delay, hb, if_true]
        omega
    · exact State.remaining_lt_of_op hs

/-- Settles O52: under the rule there is always a next step, and what is left to do runs out. -/
theorem everyLegalRunComesToRest : Obligations.EveryLegalRunComesToRest := by
  intro s hk
  induction hr : s.remaining using WellFoundedLT.induction generalizing s with
  | ind r ih =>
    by_cases hq : s.Quiet
    · exact ⟨0, s, rfl, hq⟩
    · obtain ⟨t, hstep, hkt⟩ := busyRuleExcludesHazards s hk
      obtain ⟨k, u, hrun, hu⟩ := ih t.remaining (hr ▸ step_remaining_lt hq hstep) t hkt rfl
      exact ⟨k + 1, u, (run_succ k hstep).trans hrun, hu⟩

end Sys2Proof.Machine
end
